-- ==== Sys2Proof/Word.lean ====
section
/-! DEFINITION. The two bit widths the block works in (00_scope.md R10, 20_memory.md R66) and the three channel names. -/

namespace Sys2Proof

/-- `u8`: brightness, remainder, target, masks, `count`, `index`, `PORT`, command and reply bytes (R66). -/
abbrev Byte := BitVec 8

/-- `u16`: speed, slot tops, `TCNT`, `OCRB`, gamma entries (R66). -/
abbrev Word := BitVec 16

/-- The three LED channels (`PWM_CHANNELS` = 3, R2, R8), in channel order. -/
inductive Chan where
  | c0
  | c1
  | c2
  deriving DecidableEq, Repr, Inhabited

end Sys2Proof
end

