-- ==== Sys2Proof/Syntax.lean ====
section
/-! DEFINITION. The commands of the block: one constructor per row of spec/opcode_table.json (30_encoding.md R83). -/

namespace Sys2Proof

/-- A one-byte command (30_encoding.md R80). No command has an operand field (R81): the channel a command acts on is
part of its name. `ignore` keeps the byte it was read from, since R85 gives 244 bytes that one meaning. -/
inductive Instr where
  /-- `TGT_ALL_ZERO`, byte 0x30 (R196). -/
  | tgtAllZero
  /-- `TGT0_DEC`, byte 0x31 (R190). -/
  | tgt0Dec
  /-- `TGT1_DEC`, byte 0x32 (R191). -/
  | tgt1Dec
  /-- `TGT2_DEC`, byte 0x33 (R192). -/
  | tgt2Dec
  /-- `TGT0_INC`, byte 0x34 (R193). -/
  | tgt0Inc
  /-- `TGT1_INC`, byte 0x35 (R194). -/
  | tgt1Inc
  /-- `TGT2_INC`, byte 0x36 (R195). -/
  | tgt2Inc
  /-- `TGT_HOLD`, byte 0x3D (R197). -/
  | tgtHold
  /-- `SPEED_HALVE`, byte 0x3E (R198). -/
  | speedHalve
  /-- `SPEED_DOUBLE`, byte 0x3C (R199). -/
  | speedDouble
  /-- `REPORT_SPEED`, byte 0x73 (R200). -/
  | reportSpeed
  /-- `REPORT_BRIGHT`, byte 0x62 (R201). -/
  | reportBright
  /-- `IGNORE`, any byte of no other row (R202). -/
  | ignore (op : Byte)
  deriving DecidableEq, Repr

end Sys2Proof
end

