-- ==== Sys2Proof/WellFormed.lean ====
section
/-! DEFINITION. Which instructions as syntax stand for a command byte: only `ignore` can fail to (30_encoding.md R83, R85). -/

namespace Sys2Proof

/-- The twelve byte values of 30_encoding.md R83 that are a command of their own. -/
def commandBytes : List Byte :=
  [0x30, 0x31, 0x32, 0x33, 0x34, 0x35, 0x36, 0x3D, 0x3E, 0x3C, 0x73, 0x62]

/-- `ignore op` is a command only where `op` is none of the twelve values (R83: "a byte equal to none of them decodes
as `IGNORE`"); every other constructor is well formed. -/
def Instr.wf : Instr → Bool
  | .tgtAllZero => true
  | .tgt0Dec => true
  | .tgt1Dec => true
  | .tgt2Dec => true
  | .tgt0Inc => true
  | .tgt1Inc => true
  | .tgt2Inc => true
  | .tgtHold => true
  | .speedHalve => true
  | .speedDouble => true
  | .reportSpeed => true
  | .reportBright => true
  | .ignore op => !commandBytes.contains op

end Sys2Proof
end

