-- ==== Sys2Proof/Decode.lean ====
section
/-! DEFINITION. The decoder and the encoder of the command byte (30_encoding.md R80-R85). -/

namespace Sys2Proof

/-- Why no instruction is read: only an empty byte source, since no byte is illegal (30_encoding.md R85). -/
inductive DecodeError where
  /-- There is no byte to take. -/
  | noByte
  deriving DecidableEq, Repr

/-- One row of the opcode map: the byte value and the command it is (30_encoding.md R83). -/
structure OpcodeRow where
  byte : Byte
  instr : Instr
  deriving DecidableEq, Repr

/-- The opcode map, one row per command but `IGNORE` (R83). The byte values are the ASCII codes of the source's
characters (R82, the spec's decision D21). -/
def opcodeMap : List OpcodeRow :=
  [⟨0x30, .tgtAllZero⟩, ⟨0x31, .tgt0Dec⟩, ⟨0x32, .tgt1Dec⟩, ⟨0x33, .tgt2Dec⟩,
   ⟨0x34, .tgt0Inc⟩, ⟨0x35, .tgt1Inc⟩, ⟨0x36, .tgt2Inc⟩,
   ⟨0x3D, .tgtHold⟩, ⟨0x3E, .speedHalve⟩, ⟨0x3C, .speedDouble⟩,
   ⟨0x73, .reportSpeed⟩, ⟨0x62, .reportBright⟩]

/-- "The decoder compares the whole byte against the twelve values; a byte equal to none of them decodes as `IGNORE`"
(R83). -/
def decodeByte (op : Byte) : Instr :=
  match opcodeMap.find? (fun row => row.byte == op) with
  | some row => row.instr
  | none => .ignore op

/-- Read one command from a byte stream; "the length of a command is always one byte" (R80). -/
def decode : List Byte → Except DecodeError (Instr × List Byte)
  | [] => .error .noByte
  | op :: rest => .ok (decodeByte op, rest)

/-- The command byte of an instruction (R83). -/
def encodeByte : Instr → Byte
  | .tgtAllZero => 0x30
  | .tgt0Dec => 0x31
  | .tgt1Dec => 0x32
  | .tgt2Dec => 0x33
  | .tgt0Inc => 0x34
  | .tgt1Inc => 0x35
  | .tgt2Inc => 0x36
  | .tgtHold => 0x3D
  | .speedHalve => 0x3E
  | .speedDouble => 0x3C
  | .reportSpeed => 0x73
  | .reportBright => 0x62
  | .ignore op => op

/-- The bytes of an instruction: one (R80). -/
def encode (i : Instr) : List Byte :=
  [encodeByte i]

/-- The commands of a whole byte string (30_encoding.md R86: a program is the list of its bytes). -/
def decodeStream : List Byte → List Instr
  | [] => []
  | op :: rest => decodeByte op :: decodeStream rest

/-- The byte string of a command sequence (R86). -/
def encodeStream : List Instr → List Byte
  | [] => []
  | i :: is => encode i ++ encodeStream is

/-- The byte that a table word stands for: the low `nbits` bits of `w`, every higher bit 0. -/
def tableByte (nbits w : Nat) : Byte :=
  BitVec.ofNat 8 (w % 2 ^ nbits)

/-- What the decoder reads from the bits of an opcode-table row. -/
def decodeTableWord (nbits w : Nat) : Option Instr :=
  match decode [tableByte nbits w] with
  | .ok (i, _) => some i
  | .error _ => none

end Sys2Proof
end

