-- ==== Sys2Proof/Config.lean ====
section
/-! DEFINITION. What is fixed for a run (00_scope.md R8, 10_state.md R44), the constraints on it (00_scope.md R9), and the
free values: the gamma table's contents, the clamp remainders, and the choice of the agent that moves next. -/

namespace Sys2Proof

/-- The configuration: "parameters of the step relation, fixed for the run" (10_state.md R44). -/
structure Config where
  /-- `GAMMA`: 256 entries of 16 bits by entry index (R36, R60). -/
  gamma : Byte → Word
  /-- `CH_MASK[c]` (R8, R21). -/
  chMask : Chan → Byte
  /-- `A_TOP`, the period top (R8). -/
  aTop : Word
  /-- `MID_TOP`, the mid-cycle marker's top (R8, R103). -/
  midTop : Word
  /-- `MID_MASK`, the mid-cycle marker's mask (R8, R103). -/
  midMask : Byte
  /-- `B_OFF`, the B value armed after the last slot (R8). -/
  bOff : Word
  /-- `GUARD`, the spin-catchup guard in ticks (R8). -/
  guard : Word
  /-- `MID_LEVEL`, the first post-wrap level (R8). -/
  midLevel : Byte

/-- `b` has exactly one bit set. -/
abbrev OneBit (b : Byte) : Prop :=
  ∃ i < 8, b = 1#8 <<< i

/-- R9 (a): each mask is one bit and the three are pairwise disjoint (the port's 8 bits hold them by their type). -/
abbrev Config.MasksAdmitted (c : Config) : Prop :=
  (OneBit (c.chMask .c0) ∧ OneBit (c.chMask .c1) ∧ OneBit (c.chMask .c2)) ∧
    c.chMask .c0 &&& c.chMask .c1 = 0 ∧ c.chMask .c0 &&& c.chMask .c2 = 0 ∧ c.chMask .c1 &&& c.chMask .c2 = 0

/-- R9 (b): for levels in `[1, mid - 1]`, `GAMMA[b - 1]` is strictly increasing in `b`. Entry `i` is the entry of level
`i + 1`. -/
abbrev PreWrapIncreasing (gamma : Byte → Word) (mid : Byte) : Prop :=
  ∀ i < 254, i + 2 < mid.toNat → gamma (BitVec.ofNat 8 i) < gamma (BitVec.ofNat 8 (i + 1))

/-- R9 (c): for levels in `[mid, 254]`, `GAMMA[b - 1]` is strictly increasing in `b`. -/
abbrev PostWrapIncreasing (gamma : Byte → Word) (mid : Byte) : Prop :=
  ∀ i < 253, mid.toNat ≤ i + 1 → gamma (BitVec.ofNat 8 i) < gamma (BitVec.ofNat 8 (i + 1))

/-- R9 (d): every `GAMMA[b - 1]` for `b` in `[1, 254]` is at least 1 and less than `A_TOP`. -/
abbrev GammaInRange (gamma : Byte → Word) (aTop : Word) : Prop :=
  ∀ i < 254, 1#16 ≤ gamma (BitVec.ofNat 8 i) ∧ gamma (BitVec.ofNat 8 i) < aTop

/-- R9 (b) to (d), the constraints on the gamma table. -/
abbrev GammaAdmitted (gamma : Byte → Word) (mid : Byte) (aTop : Word) : Prop :=
  PreWrapIncreasing gamma mid ∧ PostWrapIncreasing gamma mid ∧ GammaInRange gamma aTop

/-- R9 (e): `A_TOP < MID_TOP`, `A_TOP < B_OFF`, `A_TOP + GUARD <= MID_TOP`. -/
abbrev Config.TopsAdmitted (c : Config) : Prop :=
  c.aTop < c.midTop ∧ c.aTop < c.bOff ∧ c.aTop.toNat + c.guard.toNat ≤ c.midTop.toNat

/-- R9: the constraints a configuration must meet, "or the model refuses it". -/
abbrev Config.Admitted (c : Config) : Prop :=
  c.MasksAdmitted ∧ GammaAdmitted c.gamma c.midLevel c.aTop ∧ c.TopsAdmitted

/-- What an environment step can be: which agent moves next, and what the host does (R7, R281). `sequencer` and
`foreground` let that agent try its step; the step of an agent that is not enabled is a hold (R12). -/
inductive Move where
  /-- The timer's `TICK` (R250). -/
  | tick
  /-- The sequencer's `ENTER` or micro-step (R256, R152, R157). -/
  | sequencer
  /-- The foreground's step (R230). -/
  | foreground
  /-- The host appends a byte to `RX` (R281). -/
  | hostSend (b : Byte)
  /-- The host removes the head of `TX` (R281). -/
  | hostTake
  deriving DecidableEq, Repr, Inhabited

/-- FREE VALUE (log 4). A table of 256 words that nothing constrains; `Config.gammaTable` restricts it to R9. -/
opaque Config.freeGamma : Byte → Word

/-- FREE VALUE (log 3). "draw u8", the remainder after a clamp (R131, D11), by draw number. -/
opaque Config.freeByte : Nat → Byte

/-- FREE VALUE (log 2). Who moves next (R237, R257, R281, D1), by draw number. -/
opaque Config.freeMove : Nat → Move

/-- The spec's test fixture `GT` (95_test_vectors.md): entry `i` is `300 * (i + 1)` for `i` in `[0, 179]`,
`300 * (i - 179)` for `i` in `[180, 253]`, and 0 above. -/
def gammaFixture (i : Byte) : Word :=
  if i.toNat < 180 then BitVec.ofNat 16 (300 * (i.toNat + 1))
  else if i.toNat < 254 then BitVec.ofNat 16 (300 * (i.toNat - 179))
  else 0

/-- DESIGN CHOICE (log 4). The gamma table, OPEN within R9: any free table that meets R9 (b) to (d) is taken as it is;
a free table that breaks them has no run (R273), and the fixture stands in its place so that this is an admitted
table in every case. No proof can tell which admitted table it is. -/
@[irreducible] def Config.gammaTable (mid : Byte) (aTop : Word) : Byte → Word :=
  if GammaAdmitted Config.freeGamma mid aTop then Config.freeGamma else gammaFixture

end Sys2Proof
end

