-- ==== Sys2Proof/Machine/State.lean ====
section
/-! DEFINITION. The state of the block (10_state.md R20-R39) as plain data, the reasons a step can stop, and the state after
reset (70_reset_and_hazards.md R290). -/

namespace Sys2Proof.Machine

/-- The four registers of a channel (R20). `ch[c].mask` is configuration, not state (R21, R44). -/
structure Channel where
  /-- `ch[c].brightness`, the high byte of the fade's fixed-point value (R22). -/
  brightness : Byte
  /-- `ch[c].remainder`, its low byte (R22). -/
  remainder : Byte
  /-- `ch[c].target`. -/
  target : Byte
  /-- `ch[c].speed`. -/
  speed : Word
  deriving DecidableEq, Repr

/-- `ch[0..2]` (R20). -/
structure Channels where
  c0 : Channel
  c1 : Channel
  c2 : Channel
  deriving DecidableEq, Repr

/-- One schedule entry `{top, mask}` (R23). -/
structure Slot where
  top : Word
  mask : Byte
  deriving DecidableEq, Repr

/-- `slots[0..3]` (R23). -/
structure Slots where
  s0 : Slot
  s1 : Slot
  s2 : Slot
  s3 : Slot
  deriving DecidableEq, Repr

/-- The sequencer's micro-state (R37). -/
inductive Seq where
  /-- No handler running. -/
  | idle
  /-- A handler, about to make the sentinel test. -/
  | aStart1
  /-- A handler, at the spin-catchup test. -/
  | aSpin
  /-- A handler, waiting for `TCNT` to reach `slots[index].top`. -/
  | aSpinWait
  /-- A handler, about to run slot preparation. -/
  | aPrep
  /-- B handler, about to OR and prepare. -/
  | bRun
  deriving DecidableEq, Repr

/-- The foreground loop's position (R38). -/
inductive Fg where
  | checkNewCycle
  | checkLastPulse
  | dispatch
  deriving DecidableEq, Repr

/-- The model fault names of R270. A recorded fault stops nothing: "the run continues with the state the rule gives". -/
inductive ModelFault where
  /-- Recorded by `ENTER` of the A handler while `last_pulse = 1` (R272). -/
  | rebuildLate
  deriving DecidableEq, Repr

/-- The machine. -/
structure State where
  /-- `ch[0..2]` (R20). -/
  ch : Channels
  /-- `slots[0..3]` (R23). -/
  slots : Slots
  /-- `count` (R24). -/
  count : Byte
  /-- `index` (R25). -/
  index : Byte
  /-- `next_bitmask` (R26). -/
  nextBitmask : Byte
  /-- `initial_bitmask` (R27). -/
  initialBitmask : Byte
  /-- `new_cycle` (R28). -/
  newCycle : Bool
  /-- `last_pulse` (R29). -/
  lastPulse : Bool
  /-- `TCNT` (R30). -/
  tcnt : Word
  /-- `OCRB` (R32). -/
  ocrb : Word
  /-- `A_pending` (R33). -/
  aPending : Bool
  /-- `B_pending` (R33). -/
  bPending : Bool
  /-- `PORT` (R34). -/
  port : Byte
  /-- `RX`, oldest byte first (R35). -/
  rx : List Byte
  /-- `TX`, oldest byte first (R35). -/
  tx : List Byte
  /-- `seq` (R37). -/
  seq : Seq
  /-- `fg` (R38). -/
  fg : Fg
  /-- `faults`, a set: a list with no repeats (R39). -/
  faults : List ModelFault
  /-- The MODEL's own (DESIGN CHOICE, log 2): the moves already chosen for the next steps, the next one first. Where it
  is empty, the next move is a free value. -/
  script : List Move
  /-- The MODEL's own (DESIGN CHOICE, log 3): how many free values have been drawn. -/
  draws : Nat
  deriving DecidableEq, Repr

/-- Why the machine stops. -/
inductive Fault where
  /-- Raised by slot preparation and by the spin-catchup where `index` names no entry of `slots[0..3]` (R23, R25). Safe:
  R155 and R25 say no run reaches it, and a stop proves nothing about a run. -/
  | noSuchSlot
  deriving DecidableEq, Repr

/-- Why a step has no meaning. -/
inductive Refusal where
  /-- Raised by an arm of `exec` that has no meaning yet. Safe. No arm raises it. -/
  | notModelled (mnemonic : String)
  /-- Raised by `stepUnder` for a configuration that breaks 00_scope.md R9 (R273 `BadConfig`). Safe: such a configuration
  has no run. -/
  | badConfig
  deriving DecidableEq, Repr

/-- What a step answers. -/
abbrev Result := Host.Outcome State Fault Refusal

/-- A channel at reset: brightness, remainder and target 0, speed 0x0100 (R20, R290; the zeros are the spec's D13). -/
def Channel.reset : Channel :=
  { brightness := 0, remainder := 0, target := 0, speed := 0x0100 }

/-- The state every agent may step from after `RESET` (R290): the register values of step (1), the schedule that step
(2)'s `REBUILD` leaves, and the byte `'B'` (0x42, R87) of step (3). Values other than the speed and `'B'` are the spec's
decision D13. -/
def State.reset : State :=
  { ch := { c0 := Channel.reset, c1 := Channel.reset, c2 := Channel.reset }
    slots := { s0 := ⟨65000, 0xFF⟩, s1 := ⟨0, 0⟩, s2 := ⟨0, 0⟩, s3 := ⟨0, 0⟩ }
    count := 1
    index := 0
    nextBitmask := 0
    initialBitmask := 0xFF
    newCycle := false
    lastPulse := false
    tcnt := 0
    ocrb := 65000
    aPending := false
    bPending := false
    port := 0xFF
    rx := []
    tx := [0x42]
    seq := .idle
    fg := .checkNewCycle
    faults := []
    script := []
    draws := 0 }

end Sys2Proof.Machine
end

