-- ==== Sys2Proof/Machine/Params.lean ====
section
/-! DEFINITION. The configuration this model runs: the values of 00_scope.md R8, and the constant registers it gives
(10_state.md R21, R31). -/

namespace Sys2Proof.Machine

/-- `CH_MASK[0..2]` = 0x01, 0x02, 0x04 (R8; the last two are the spec's decision D5). -/
def defaultChMask : Chan → Byte
  | .c0 => 0x01
  | .c1 => 0x02
  | .c2 => 0x04

/-- The configuration of 00_scope.md R8: the values it gives, and an open `GAMMA` (log 4, log 5). -/
def chip : Config where
  gamma := Config.gammaTable 181 64000
  chMask := defaultChMask
  aTop := 64000
  midTop := 65000
  midMask := 0xFF
  bOff := 65000
  guard := 500
  midLevel := 181

/-- `OCRA`, "constant `A_TOP`", not writable by the core (R31). -/
def ocra (c : Config) : Word :=
  c.aTop

/-- `ch[c].mask`, "a constant u8 of the configuration" (R21). -/
def channelMask (c : Config) (k : Chan) : Byte :=
  c.chMask k

/-- The mid-cycle marker `{top = MID_TOP, mask = MID_MASK}` (R103). -/
def marker (c : Config) : Slot :=
  ⟨c.midTop, c.midMask⟩

end Sys2Proof.Machine
end

