-- ==== Sys2Proof/Machine/Operands.lean ====
section
/-! DEFINITION. The implicit operands (30_encoding.md R81): bytes of a word, a channel's registers, the schedule entry under
the cursor, the gamma ROM (R10, R20, R22, R23, R60). -/

namespace Sys2Proof.Machine

/-- `high(v)` is `v[15:8]` (R10). -/
def high (v : Word) : Byte :=
  v.extractLsb' 8 8

/-- `low(v)` is `v[7:0]` (R10). -/
def low (v : Word) : Byte :=
  v.extractLsb' 0 8

/-- `a:b` with two 8-bit values is `(a << 8) | b` (R10). -/
def join (a b : Byte) : Word :=
  (a.zeroExtend 16 <<< 8) ||| b.zeroExtend 16

/-- `ch[c]` (R20). -/
def Channels.get (chs : Channels) : Chan → Channel
  | .c0 => chs.c0
  | .c1 => chs.c1
  | .c2 => chs.c2

/-- `ch[c] <- x`. -/
def Channels.set (chs : Channels) (x : Channel) : Chan → Channels
  | .c0 => { chs with c0 := x }
  | .c1 => { chs with c1 := x }
  | .c2 => { chs with c2 := x }

/-- `for c in 0..2`: the same update of every channel. -/
def Channels.map (chs : Channels) (f : Channel → Channel) : Channels :=
  { c0 := f chs.c0, c1 := f chs.c1, c2 := f chs.c2 }

/-- The channels in order (R8). -/
def channelList : List Chan :=
  [.c0, .c1, .c2]

/-- `slots[i]`, none where `i` names no entry (R23). -/
def Slots.get? (sl : Slots) : Nat → Option Slot
  | 0 => some sl.s0
  | 1 => some sl.s1
  | 2 => some sl.s2
  | 3 => some sl.s3
  | _ => none

/-- Write a list of entries over `slots[0], slots[1], ...`; the entries past the list "are not written" (R110). -/
def Slots.overlay (sl : Slots) (out : List Slot) : Slots :=
  { s0 := out[0]?.getD sl.s0
    s1 := out[1]?.getD sl.s1
    s2 := out[2]?.getD sl.s2
    s3 := out[3]?.getD sl.s3 }

/-- `slots[index]`. -/
def currentSlot (s : State) : Option Slot :=
  s.slots.get? s.index.toNat

/-- `RomRead(i)`: the whole 16-bit entry `GAMMA[i]` (R11, R60). -/
def romRead (c : Config) (i : Byte) : Word :=
  c.gamma i

/-- `GAMMA_LOOKUP(b)`: `GAMMA[b - 1]` (R100). Called for `b` in `[1, 254]` only, so the subtraction does not wrap
(R65). -/
def gammaLookup (c : Config) (b : Byte) : Word :=
  romRead c (b - 1)

/-- Write `ch[k].target`. -/
def setTarget (k : Chan) (v : Byte) (s : State) : State :=
  { s with ch := s.ch.set { s.ch.get k with target := v } k }

/-- Write every channel's target by a rule over the channel. -/
def mapTargets (f : Channel → Byte) (s : State) : State :=
  { s with ch := s.ch.map fun x => { x with target := f x } }

/-- Write every channel's speed by a rule over the old speed. -/
def mapSpeeds (f : Word → Word) (s : State) : State :=
  { s with ch := s.ch.map fun x => { x with speed := f x.speed } }

end Sys2Proof.Machine
end

