-- ==== Sys2Proof/Machine/Flags.lean ====
section
/-! DEFINITION. The four status bits (10_state.md R28, R29, R33, R41) and the set of recorded faults (R39). The block has no
arithmetic flags (R41). -/

namespace Sys2Proof.Machine

/-- Set `new_cycle` (R28: only by the A handler's cycle-start branch). -/
def setNewCycle (s : State) : State :=
  { s with newCycle := true }

/-- The clear half of the foreground's read-and-clear of `new_cycle` (R28, R68). -/
def clearNewCycle (s : State) : State :=
  { s with newCycle := false }

/-- Set `last_pulse` (R29: only by slot preparation). -/
def setLastPulse (s : State) : State :=
  { s with lastPulse := true }

/-- The clear half of the foreground's read-and-clear of `last_pulse` (R29, R68). -/
def clearLastPulse (s : State) : State :=
  { s with lastPulse := false }

/-- Latch the compare-A event (R33, R250). A match while the latch is set is lost (R255). -/
def latchA (s : State) : State :=
  { s with aPending := true }

/-- Latch the compare-B event (R33, R252). -/
def latchB (s : State) : State :=
  { s with bPending := true }

/-- Clear the A latch, on entry to the A handler (R255, R256). -/
def clearA (s : State) : State :=
  { s with aPending := false }

/-- Clear the B latch, on entry to the B handler (R255, R256). -/
def clearB (s : State) : State :=
  { s with bPending := false }

/-- A compare event waits for its handler (R256). -/
def eventPending (s : State) : Bool :=
  s.aPending || s.bPending

/-- Add a name to a set held as a list with no repeats. -/
def insertFault (f : ModelFault) : List ModelFault → List ModelFault
  | [] => [f]
  | g :: gs => if g = f then g :: gs else g :: insertFault f gs

/-- `if cond: raise Fault(name)`: add the name to the set; no step stops and no step removes it (R39, R256, R270). -/
def raiseFaultIf (cond : Bool) (f : ModelFault) (s : State) : State :=
  { s with faults := if cond then insertFault f s.faults else s.faults }

end Sys2Proof.Machine
end

