-- ==== Sys2Proof/Machine/Ops.lean ====
section
/-! DEFINITION. The named operations on the queues, the port, the compare register and the control positions, and taking an
interrupt (60_exceptions.md R256) with the return from one (R260). -/

namespace Sys2Proof.Machine

/-- `Emit`: append bytes to `TX`, which never fills (R11, R204). -/
def emit (bs : List Byte) (s : State) : State :=
  { s with tx := s.tx ++ bs }

/-- What is left in `RX` after `Take()` of its head (R11, R69). -/
def leaveRx (rest : List Byte) (s : State) : State :=
  { s with rx := rest }

/-- `PORT <- v`, the full write (R163). -/
def writePort (v : Byte) (s : State) : State :=
  { s with port := v }

/-- `PORT <- PORT | m` (R163). -/
def orPort (m : Byte) (s : State) : State :=
  { s with port := s.port ||| m }

/-- The staged slot is the mid-cycle marker: its mask is staged, and `OCRB` holds a value that compare B cannot match
(R103, R252). -/
def markerStaged (c : Config) (s : State) : Bool :=
  decide (s.nextBitmask = c.midMask ∧ c.aTop < s.ocrb)

/-- The mask that the B handler ORs into the port: `next_bitmask` (R157), but never the marker's (R158, as
90_conflicts.md C5 rules; log 14). -/
def stagedMask (c : Config) (s : State) : Byte :=
  if markerStaged c s then 0 else s.nextBitmask

/-- `OCRB <- v`; it latches nothing by itself (R252). -/
def writeOcrb (v : Word) (s : State) : State :=
  { s with ocrb := v }

/-- `next_bitmask <- m` (R159). -/
def stageMask (m : Byte) (s : State) : State :=
  { s with nextBitmask := m }

/-- `index <- v` (R25). -/
def setIndex (v : Byte) (s : State) : State :=
  { s with index := v }

/-- `seq <- q` (R37). -/
def goSeq (q : Seq) (s : State) : State :=
  { s with seq := q }

/-- `fg <- p` (R38). -/
def goFg (p : Fg) (s : State) : State :=
  { s with fg := p }

/-- Record the late rebuild when the A handler is entered while `last_pulse = 1` (R256, R272). -/
def checkRebuildLate (s : State) : State :=
  raiseFaultIf s.lastPulse .rebuildLate s

/-- TAKING AN INTERRUPT, `ENTER` with a latch set (R256): A before B, the latch is cleared, the sequencer goes to the
handler. It saves nothing: "the foreground's position `fg` and all its values are untouched" (R259). -/
def enter (s : State) : State :=
  if s.aPending then goSeq .aStart1 (checkRebuildLate (clearA s))
  else goSeq .bRun (clearB s)

/-- THE RETURN: "a handler returns when its last micro-step sets `seq <- Idle`" (R260). -/
def handlerReturn (s : State) : State :=
  goSeq .idle s

end Sys2Proof.Machine
end

