-- ==== Sys2Proof/Machine/Report.lean ====
section
/-! DEFINITION. The report commands and `IGNORE` (43_commands.md R200-R202). -/

namespace Sys2Proof.Machine

/-- `REPORT_SPEED`: `Emit(high(ch[0].speed)); Emit(low(ch[0].speed))` (R200, R63). -/
def execReportSpeed (s : State) : Result :=
  .next (emit [high s.ch.c0.speed, low s.ch.c0.speed] s)

/-- `REPORT_BRIGHT`: the three brightness bytes in channel order (R201). -/
def execReportBright (s : State) : Result :=
  .next (emit [s.ch.c0.brightness, s.ch.c1.brightness, s.ch.c2.brightness] s)

/-- `IGNORE`: "no state change other than the removal of the byte from `RX`", which `Dispatch` has made (R202, R233). -/
def execIgnore (_op : Byte) (s : State) : Result :=
  .next s

end Sys2Proof.Machine
end

