-- ==== Sys2Proof/Machine/Speed.lean ====
section
/-! DEFINITION. The speed commands (43_commands.md R198, R199). -/

namespace Sys2Proof.Machine

/-- `SPEED_HALVE`: `for c in 0..2: ch[c].speed <- ch[c].speed >> 1`, a logical shift (R198). -/
def execSpeedHalve (s : State) : Result :=
  .next (mapSpeeds (fun v => v >>> 1) s)

/-- `SPEED_DOUBLE`: `for c in 0..2: ch[c].speed <- ch[c].speed <<16 1` (R199). -/
def execSpeedDouble (s : State) : Result :=
  .next (mapSpeeds (fun v => v <<< 1) s)

end Sys2Proof.Machine
end

