-- ==== Sys2Proof/Machine/Target.lean ====
section
/-! DEFINITION. The target commands (43_commands.md R190-R197). -/

namespace Sys2Proof.Machine

/-- `ch[k].target <- ch[k].target -8 1`. -/
def decTarget (k : Chan) (s : State) : State :=
  setTarget k ((s.ch.get k).target - 1) s

/-- `ch[k].target <- ch[k].target +8 1`. -/
def incTarget (k : Chan) (s : State) : State :=
  setTarget k ((s.ch.get k).target + 1) s

/-- `TGT0_DEC` (R190). -/
def execTgt0Dec (s : State) : Result :=
  .next (decTarget .c0 s)

/-- `TGT1_DEC` (R191). -/
def execTgt1Dec (s : State) : Result :=
  .next (decTarget .c1 s)

/-- `TGT2_DEC` (R192). -/
def execTgt2Dec (s : State) : Result :=
  .next (decTarget .c2 s)

/-- `TGT0_INC` (R193). -/
def execTgt0Inc (s : State) : Result :=
  .next (incTarget .c0 s)

/-- `TGT1_INC` (R194). -/
def execTgt1Inc (s : State) : Result :=
  .next (incTarget .c1 s)

/-- `TGT2_INC` (R195). -/
def execTgt2Inc (s : State) : Result :=
  .next (incTarget .c2 s)

/-- `TGT_ALL_ZERO`: `for c in 0..2: ch[c].target <- 0` (R196). -/
def execTgtAllZero (s : State) : Result :=
  .next (mapTargets (fun _ => 0) s)

/-- `TGT_HOLD`: `for c in 0..2: ch[c].target <- ch[c].brightness` (R197). -/
def execTgtHold (s : State) : Result :=
  .next (mapTargets (fun x => x.brightness) s)

end Sys2Proof.Machine
end

