-- ==== Sys2Proof/Machine/Dispatch.lean ====
section
/-! DEFINITION. Which meaning each command has (30_encoding.md R83, last column). The state given is the one after `Take`. -/

namespace Sys2Proof.Machine

def exec (i : Instr) (s : State) : Host.Outcome State Fault Refusal :=
  match i with
  | .tgtAllZero => Sys2Proof.Machine.execTgtAllZero s
  | .tgt0Dec => Sys2Proof.Machine.execTgt0Dec s
  | .tgt1Dec => Sys2Proof.Machine.execTgt1Dec s
  | .tgt2Dec => Sys2Proof.Machine.execTgt2Dec s
  | .tgt0Inc => Sys2Proof.Machine.execTgt0Inc s
  | .tgt1Inc => Sys2Proof.Machine.execTgt1Inc s
  | .tgt2Inc => Sys2Proof.Machine.execTgt2Inc s
  | .tgtHold => Sys2Proof.Machine.execTgtHold s
  | .speedHalve => Sys2Proof.Machine.execSpeedHalve s
  | .speedDouble => Sys2Proof.Machine.execSpeedDouble s
  | .reportSpeed => Sys2Proof.Machine.execReportSpeed s
  | .reportBright => Sys2Proof.Machine.execReportBright s
  | .ignore op => Sys2Proof.Machine.execIgnore op s

end Sys2Proof.Machine
end

