-- ==== Sys2Proof/Machine/Fade.lean ====
section
/-! DEFINITION. The fade integrator `FADE` (41_fade.md R130-R134). -/

namespace Sys2Proof.Machine

/-- The clamp branch: brightness becomes the target, "remainder unspecified": the free value `draw` (R131, D11). -/
def clampFade (x : Channel) (draw : Byte) : Channel :=
  { x with brightness := x.target, remainder := draw }

/-- The other branch: `brightness <- high(v)`, `remainder <- low(v)` (R131). -/
def acceptFade (x : Channel) (v : Word) : Channel :=
  { x with brightness := high v, remainder := low v }

/-- `FADE_CH(c)` on the channel's registers (R131). The overflow tests compare bytes (R41). -/
def fadeChannel (draw : Byte) (x : Channel) : Channel :=
  if x.brightness < x.target then
    if high (join x.brightness x.remainder + x.speed) < x.brightness ∨
        x.target < high (join x.brightness x.remainder + x.speed) then
      clampFade x draw
    else acceptFade x (join x.brightness x.remainder + x.speed)
  else if x.target < x.brightness then
    if x.brightness < high (join x.brightness x.remainder - x.speed) ∨
        high (join x.brightness x.remainder - x.speed) < x.target then
      clampFade x draw
    else acceptFade x (join x.brightness x.remainder - x.speed)
  else x

/-- `FADE()`: the three channels, independent of each other (R130). Channel `k` uses draw number `draws + k`. -/
def fade (s : State) : State :=
  { s with
    ch :=
      { c0 := fadeChannel (Config.freeByte s.draws) s.ch.c0
        c1 := fadeChannel (Config.freeByte (s.draws + 1)) s.ch.c1
        c2 := fadeChannel (Config.freeByte (s.draws + 2)) s.ch.c2 }
    draws := s.draws + 3 }

end Sys2Proof.Machine
end

