-- ==== Sys2Proof/Machine/Scheduler.lean ====
section
/-! DEFINITION. The timeslot scheduler `REBUILD` (40_gamma_scheduler.md R110-R118). -/

namespace Sys2Proof.Machine

/-- The key of the scheduler's sort. -/
def brightnessOf (chs : Channels) (k : Chan) : Byte :=
  (chs.get k).brightness

/-- Put `k` after every channel whose brightness is not greater (R110: "ties: lower channel index first"). -/
def insertChannel (chs : Channels) (k : Chan) : List Chan → List Chan
  | [] => [k]
  | j :: js => if brightnessOf chs k < brightnessOf chs j then k :: j :: js else j :: insertChannel chs k js

/-- "stable ascending sort of [0,1,2] by key ch[c].brightness" (R110, R111). -/
def sortedChannels (chs : Channels) : List Chan :=
  channelList.foldl (fun acc k => insertChannel chs k acc) []

/-- The walk's variables (R110): `last`, `run`, and the slots emitted so far, the latest first (`n` is their number). -/
structure Walk where
  last : Byte
  run : Byte
  emitted : List Slot
  deriving DecidableEq, Repr

/-- "A channel contributes a slot only if `0 < brightness < 255`" (R112). -/
def eligible (b : Byte) : Bool :=
  0 < b && b < 255

/-- `slots[n - 1].mask <- run` (step 2c). -/
def collapseLatest (run : Byte) : List Slot → List Slot
  | [] => []
  | sl :: rest => { sl with mask := run } :: rest

/-- Step 2a: emit the marker before the first post-wrap level `b`. -/
def crossMid (c : Config) (b : Byte) (w : Walk) : Walk :=
  if w.last < c.midLevel ∧ c.midLevel ≤ b then { w with emitted := marker c :: w.emitted } else w

/-- Steps 2b and 2c for a channel with mask `m` and brightness `b`. -/
def visitLevel (c : Config) (m b : Byte) (w : Walk) : Walk :=
  if w.last < b then
    { last := b, run := w.run ||| m, emitted := ⟨gammaLookup c b, w.run ||| m⟩ :: w.emitted }
  else
    { w with run := w.run ||| m, emitted := collapseLatest (w.run ||| m) w.emitted }

/-- One turn of the walk `for c in order` (R110, step 2). -/
def visitChannel (c : Config) (chs : Channels) (w : Walk) (k : Chan) : Walk :=
  if eligible (brightnessOf chs k) then
    visitLevel c (channelMask c k) (brightnessOf chs k) (crossMid c (brightnessOf chs k) w)
  else w

/-- Step 3: the marker comes last where the walk emitted none. -/
def closeWalk (c : Config) (w : Walk) : List Slot :=
  if w.last < c.midLevel then marker c :: w.emitted else w.emitted

/-- The slots of a rebuild, `slots[0..n-1]`, from the brightness levels (R110, steps 1 to 3). -/
def builtSlots (c : Config) (chs : Channels) : List Slot :=
  (closeWalk c ((sortedChannels chs).foldl (visitChannel c chs) ⟨0, 0, []⟩)).reverse

/-- Step 4: 0xFF with the mask of every channel with brightness above 0 cleared (R110, R117). -/
def builtInitialMask (c : Config) (chs : Channels) : Byte :=
  channelList.foldl (fun ib k => if 0 < brightnessOf chs k then ib &&& ~~~channelMask c k else ib) 0xFF

/-- `REBUILD()` (R110): entries past `count` are not written; `index` and `next_bitmask` become 0. -/
def rebuild (c : Config) (s : State) : State :=
  { s with
    slots := s.slots.overlay (builtSlots c s.ch)
    count := BitVec.ofNat 8 (builtSlots c s.ch).length
    initialBitmask := builtInitialMask c s.ch
    index := 0
    nextBitmask := 0 }

end Sys2Proof.Machine
end

