-- ==== Sys2Proof/Machine/Foreground.lean ====
section
/-! DEFINITION. The foreground loop (44_foreground.md R230-R236). -/

namespace Sys2Proof.Machine

/-- The step at `CheckNewCycle` (R231). -/
def checkNewCycle (s : State) : State :=
  goFg .checkLastPulse (if s.newCycle then fade (clearNewCycle s) else s)

/-- `REBUILD(); Emit(count)`: the diagnostic byte is the new count (R232). -/
def rebuildAndReport (c : Config) (s : State) : State :=
  emit [(rebuild c s).count] (rebuild c s)

/-- The step at `CheckLastPulse` (R232). -/
def checkLastPulse (c : Config) (s : State) : State :=
  goFg .dispatch (if s.lastPulse then rebuildAndReport c (clearLastPulse s) else s)

/-- The step at `Dispatch`: take one byte and execute its command; an empty `RX` "makes the step a no-op" (R233). -/
def dispatch (s : State) : Result :=
  match decode s.rx with
  | .ok (i, rest) => exec i (goFg .checkNewCycle (leaveRx rest s))
  | .error .noByte => .next (goFg .checkNewCycle s)

/-- The foreground is enabled while no handler runs and no latch is set (R257). -/
def foregroundEnabled (s : State) : Bool :=
  decide (s.seq = .idle) && !eventPending s

/-- One step of the loop at the position `fg` (R230). -/
def foregroundLoop (c : Config) (s : State) : Result :=
  match s.fg with
  | .checkNewCycle => .next (checkNewCycle s)
  | .checkLastPulse => .next (checkLastPulse c s)
  | .dispatch => dispatch s

/-- The foreground's step; while it is not enabled it holds (R12, R257). -/
def foregroundStep (c : Config) (s : State) : Result :=
  if foregroundEnabled s then foregroundLoop c s else .next s

end Sys2Proof.Machine
end

