-- ==== Sys2Proof/Machine/Sequencer.lean ====
section
/-! DEFINITION. The LED output sequencer: `PREPARE`, the micro-steps of `A_HANDLER`, and `B_HANDLER`
(42_sequencer.md R150-R160). -/

namespace Sys2Proof.Machine

/-- `PREPARE()`, the timer reload engine (R159). The stop is for an `index` that names no entry, which no run reaches. -/
def prepare (c : Config) (s : State) : Result :=
  if s.count ≤ s.index then
    .next (writeOcrb c.bOff (setLastPulse (setIndex 0 s)))
  else
    match currentSlot s with
    | some sl => .next (setIndex (s.index + 1) (stageMask sl.mask (writeOcrb sl.top s)))
    | none => .fault .noSuchSlot

/-- `A_Start1`: the sentinel test, and steps 1 and 2 in the cycle-start branch (R150, R152). -/
def aStart (s : State) : Result :=
  if s.nextBitmask = 0 then .next (goSeq .aSpin (setNewCycle (writePort s.initialBitmask s)))
  else .next (goSeq .aPrep s)

/-- The spin test `TCNT + GUARD > top`, an unbounded addition (R150, R153, R154). -/
def spinTest (c : Config) (tcnt top : Word) : Bool :=
  top.toNat < tcnt.toNat + c.guard.toNat

/-- `A_Spin`: one reading of `TCNT` and one spin test (R152). -/
def aSpin (c : Config) (s : State) : Result :=
  match currentSlot s with
  | some sl => .next (goSeq (if spinTest c s.tcnt sl.top then .aSpinWait else .aPrep) s)
  | none => .fault .noSuchSlot

/-- `A_SpinWait`: holds until `TCNT >= slots[index].top`, then ORs the slot's mask and advances (R152). -/
def aSpinWait (s : State) : Result :=
  match currentSlot s with
  | some sl =>
    if sl.top ≤ s.tcnt then .next (goSeq .aSpin (setIndex (s.index + 1) (orPort sl.mask s))) else .next s
  | none => .fault .noSuchSlot

/-- `A_Prep`: `PREPARE`, then `Idle` (R152, R260). -/
def aPrep (c : Config) (s : State) : Result :=
  prepare c (handlerReturn s)

/-- `B_Run`, all of `B_HANDLER` (R157, R158). -/
def bRun (c : Config) (s : State) : Result :=
  prepare c (handlerReturn (orPort (stagedMask c s) s))

/-- The sequencer's step: `ENTER` when idle with a latch set (R256), else the running handler's micro-step; with neither
it holds. -/
def sequencerStep (c : Config) (s : State) : Result :=
  match s.seq with
  | .idle => if eventPending s then .next (enter s) else .next s
  | .aStart1 => aStart s
  | .aSpin => aSpin c s
  | .aSpinWait => aSpinWait s
  | .aPrep => aPrep c s
  | .bRun => bRun c s

end Sys2Proof.Machine
end

