-- ==== Sys2Proof/Machine/Timer.lean ====
section
/-! DEFINITION. The timer's step `TICK` (60_exceptions.md R250-R252). -/

namespace Sys2Proof.Machine

/-- The count and compare A: at `OCRA` the counter clears and the A event latches, else it counts (R250). -/
def countTick (c : Config) (s : State) : State :=
  if s.tcnt = ocra c then latchA { s with tcnt := 0 } else { s with tcnt := s.tcnt + 1 }

/-- Compare B, "tested on the new count" (R250, R252). -/
def compareB (s : State) : State :=
  if s.tcnt = s.ocrb then latchB s else s

/-- `TICK` (R250). -/
def tick (c : Config) (s : State) : State :=
  compareB (countTick c s)

end Sys2Proof.Machine
end

