-- ==== Sys2Proof/Machine/Agents.lean ====
section
/-! DEFINITION. What each agent's move does (00_scope.md R7, 60_exceptions.md R257, R281), and which move comes next. -/

namespace Sys2Proof.Machine

/-- The host appends a byte to `RX` (R281). -/
def hostSend (b : Byte) (s : State) : State :=
  { s with rx := s.rx ++ [b] }

/-- The host removes the head of `TX`; an empty `TX` has nothing to remove (R281). -/
def hostTake (s : State) : State :=
  { s with tx := s.tx.tail }

/-- One atomic step of one agent (R67, R70). -/
def moveStep (c : Config) (m : Move) (s : State) : Result :=
  match m with
  | .tick => .next (tick c s)
  | .sequencer => sequencerStep c s
  | .foreground => foregroundStep c s
  | .hostSend b => .next (hostSend b s)
  | .hostTake => .next (hostTake s)

/-- The move the next step makes: the first of `script`, or a free one (log 2). -/
def nextMove (s : State) : Move :=
  match s.script with
  | m :: _ => m
  | [] => Config.freeMove s.draws

/-- The state with that choice used up. -/
def chooseMove (s : State) : State :=
  match s.script with
  | _ :: rest => { s with script := rest }
  | [] => { s with draws := s.draws + 1 }

/-- A step under an admitted configuration. -/
def stepOf (c : Config) (s : State) : Result :=
  moveStep c (nextMove s) (chooseMove s)

/-- A step under any configuration: one that breaks R9 "has no run in the model" (R273). -/
def stepUnder (c : Config) (s : State) : Result :=
  if c.Admitted then stepOf c s else .refused .badConfig

/-- Place a command byte where the very next step takes and runs it: at the head of `RX`, the foreground at `Dispatch`
and enabled, and the foreground next to move (log 6). -/
def placeCommand (b : Byte) (s : State) : State :=
  { s with
    rx := b :: s.rx
    fg := .dispatch
    seq := .idle
    aPending := false
    bPending := false
    script := .foreground :: s.script }

end Sys2Proof.Machine
end

