-- ==== Sys2Proof/Machine/Step.lean ====
section
/-! DEFINITION. The step of the machine with the configuration of 00_scope.md R8, and where a command is placed for it. -/

namespace Sys2Proof.Machine

/-- One step. The configuration `chip` is admitted (`Sys2Proof.Laws.chip_admitted`), so this is `stepUnder chip` with its
check already made. -/
def step (s : State) : Host.Outcome State Fault Refusal :=
  stepOf chip s

/-- The state whose next step takes and runs the command byte `w` (one byte: R80). -/
def State.withFetchWord (s : State) (nbits w : Nat) : State :=
  placeCommand (tableByte nbits w) s

end Sys2Proof.Machine
end

