-- ==== Sys2Proof/Safety.lean ====
section
/-! DEFINITION. What counts as a legal state and as a run: the invariant that every step keeps, the fault-free states, the
enabled agents, and the fair infinite runs (10_state.md R43, 42_sequencer.md R155, 60_exceptions.md R257, R270, R271). -/

namespace Sys2Proof

open Sys2Proof.Machine

/-- No model fault is recorded (R270). -/
def FaultFree (s : State) : Prop :=
  s.faults = []

/-- The marker stands at position `m` of the schedule in use (R115). -/
def MarkerAt (c : Config) (s : State) (m : Nat) : Prop :=
  m < s.count.toNat ∧ s.slots.get? m = some (marker c)

/-- Every entry in use is the marker or a channel slot with a deadline in `[1, A_TOP)`, and its mask is not the sentinel
(R9 (d), R103, R118). -/
def EntriesLegal (c : Config) (s : State) : Prop :=
  ∀ i < s.count.toNat, ∀ sl, s.slots.get? i = some sl →
    sl.mask ≠ 0 ∧ (sl = marker c ∨ (1#16 ≤ sl.top ∧ sl.top < c.aTop))

/-- Where the cursor may stand at each position of the sequencer: the sentinel is only up while the cursor is at 0, and
the spin stands at or before the marker, and waits only for a pre-wrap deadline (R110, R155, R156). -/
def CursorLegal (c : Config) (s : State) : Prop :=
  match s.seq with
  | .idle => s.nextBitmask = 0 → s.index = 0
  | .aStart1 => s.nextBitmask = 0 → s.index = 0
  | .bRun => s.nextBitmask = 0 → s.index = 0
  | .aSpin => ∃ m, MarkerAt c s m ∧ s.index.toNat ≤ m
  | .aSpinWait => (∃ m, MarkerAt c s m ∧ s.index.toNat < m) ∧ ∃ sl, currentSlot s = some sl ∧ sl.top < c.aTop
  | .aPrep => True

/-- The legal states of a configuration. -/
structure Inv (c : Config) (s : State) : Prop where
  /-- `TCNT` is in `0..A_TOP` (R30). -/
  counter : s.tcnt ≤ c.aTop
  /-- `count` is in `1..4` (R24). -/
  countLow : 1 ≤ s.count.toNat
  countHigh : s.count.toNat ≤ 4
  /-- `index` is in `0..count` (R25). -/
  cursorBound : s.index.toNat ≤ s.count.toNat
  /-- The entries in use are legal (R118). -/
  entries : EntriesLegal c s
  /-- "the marker is always present" (R115, R155). -/
  hasMarker : ∃ m, MarkerAt c s m
  cursor : CursorLegal c s
  /-- "no value `OCRB` can hold is 0" (R258). -/
  compareB : s.ocrb ≠ 0
  /-- `faults` is a set (R39). -/
  faultSet : s.faults.Nodup

/-- A mask with no bit outside the three channel masks (R113: the running mask is ORed only with channel masks). -/
def WithinChannels (c : Config) (m : Byte) : Prop :=
  m &&& ~~~(c.chMask .c0 ||| c.chMask .c1 ||| c.chMask .c2) = 0

/-- The legal states in which only channel bits are staged for the port, beside the marker while it is staged. -/
structure MarkerClear (c : Config) (s : State) : Prop where
  legal : Inv c s
  /-- An entry in use other than the marker has channel bits only (R113). -/
  channelMasks : ∀ i < s.count.toNat, ∀ sl, s.slots.get? i = some sl → sl = marker c ∨ WithinChannels c sl.mask
  /-- What is staged: the marker, with compare B out of reach, or channel bits. -/
  staged : markerStaged c s = true ∨ WithinChannels c s.nextBitmask

/-- Where compare B is out of reach (the marker's top, `B_OFF`: R252), no older B event waits and the B handler does not
run. -/
def NoOldB (c : Config) (s : State) : Prop :=
  c.aTop < s.ocrb → s.bPending = false ∧ s.seq ≠ .bRun

/-- Slot preparation is about to arm `OCRB` anew while a B event of the old value still waits. -/
def PreparesOverB (s : State) : Prop :=
  (s.seq = .aPrep ∨ s.seq = .bRun) ∧ s.bPending = true

/-- The sequencer has a step that is no hold: `ENTER` with a latch set, or a micro-step; `A_SpinWait` is enabled only when
`TCNT >= slots[index].top` (R152, R256). -/
def sequencerEnabled (s : State) : Prop :=
  match s.seq with
  | .idle => eventPending s = true
  | .aSpinWait => ∃ sl, currentSlot s = some sl ∧ sl.top ≤ s.tcnt
  | .aStart1 => True
  | .aSpin => True
  | .aPrep => True
  | .bRun => True

/-- An infinite run: it starts at reset and every step answers the next state (R14, R290). -/
def IsRun (r : Nat → State) : Prop :=
  r 0 = State.reset ∧ ∀ n, step (r n) = .next (r (n + 1))

/-- "`TICK` occurs infinitely often, and an agent whose step stays enabled takes it eventually (weak fairness)" (R271). -/
def IsFairRun (r : Nat → State) : Prop :=
  IsRun r ∧
  (∀ n, ∃ m, n ≤ m ∧ nextMove (r m) = .tick) ∧
  (∀ n, ∃ m, n ≤ m ∧ (nextMove (r m) = .sequencer ∨ ¬ sequencerEnabled (r m))) ∧
  (∀ n, ∃ m, n ≤ m ∧ (nextMove (r m) = .foreground ∨ foregroundEnabled (r m) = false))

end Sys2Proof
end

