-- ==== Sys2Proof/Certificates/Slice0/Obligations.lean ====
section
/-! DEFINITION. The statements for the provers, and the few words they are stated in. Every statement is about the machine,
none about a program. There is no addressed memory (20_memory.md R61), so a frame covers all of `State`. -/

namespace Sys2Proof.Claims

open Sys2Proof.Machine

/-- The brightness and remainder of a channel as one natural number, brightness the high byte (R22). -/
def fixedPoint (x : Channel) : Nat :=
  256 * x.brightness.toNat + x.remainder.toNat

/-- `n` fade steps of one channel with the same target and speed; step `k` would draw `draw k` (R136). -/
def fadeTimes (draw : Nat → Byte) : Nat → Channel → Channel
  | 0, x => x
  | n + 1, x => fadeChannel (draw n) (fadeTimes draw n x)

/-- `n` timer ticks and nothing else. -/
def ticks (c : Config) : Nat → State → State
  | 0, s => s
  | n + 1, s => tick c (ticks c n s)

/-- A list of moves, one after the other, until one stops. -/
def runMoves (c : Config) : List Move → State → Result
  | [], s => .next s
  | m :: ms, s =>
    match moveStep c m s with
    | .next t => runMoves c ms t
    | .fault f => .fault f
    | .refused r => .refused r

/-- `n` calls of slot preparation. -/
def prepareTimes (c : Config) : Nat → State → Result
  | 0, s => .next s
  | n + 1, s =>
    match prepareTimes c n s with
    | .next t => prepare c t
    | .fault f => .fault f
    | .refused r => .refused r

/-- The answer with its next state changed by `f`. -/
def mapNext (f : State → State) : Result → Result
  | .next t => .next (f t)
  | .fault r => .fault r
  | .refused r => .refused r

/-- The event that ends the staged slot: the A event where `OCRB` lies above `A_TOP`, else the B event; then the
sequencer moves until it is idle again (four moves are enough where it does not spin: an idle sequencer with no latch
set holds). -/
def serveEvent (c : Config) (s : State) : Result :=
  runMoves c [.sequencer, .sequencer, .sequencer, .sequencer]
    (if c.aTop < s.ocrb then { s with aPending := true } else { s with bPending := true })

/-- `n` such events, one after the other. -/
def serveEvents (c : Config) : Nat → State → Result
  | 0, s => .next s
  | n + 1, s =>
    match serveEvents c n s with
    | .next t => serveEvent c t
    | .fault f => .fault f
    | .refused r => .refused r

/-- The levels in `[lo, hi)` that some channel has, rising. -/
def levelsIn (chs : Channels) (lo hi : Nat) : List Nat :=
  (List.range' lo (hi - lo)).filter fun b => channelList.any fun k => (brightnessOf chs k).toNat == b

/-- The OR of the masks of the eligible channels at or below level `b` (R113). -/
def maskUpTo (c : Config) (chs : Channels) (b : Nat) : Byte :=
  channelList.foldl
    (fun m k =>
      if 0 < (brightnessOf chs k).toNat ∧ (brightnessOf chs k).toNat < 255 ∧ (brightnessOf chs k).toNat ≤ b then
        m ||| c.chMask k
      else m) 0

/-- The slot of level `b`: the deadline `GAMMA[b - 1]`, and the mask of every channel at or below `b`. -/
def levelSlot (c : Config) (chs : Channels) (b : Nat) : Slot :=
  ⟨c.gamma (BitVec.ofNat 8 (b - 1)), maskUpTo c chs b⟩

/-- What a rebuild is for: one slot per level in use, the pre-wrap levels first, then the marker, then the post-wrap
levels (R101, R112-R116). -/
def schedule (c : Config) (chs : Channels) : List Slot :=
  (levelsIn chs 1 c.midLevel.toNat).map (levelSlot c chs) ++
    ⟨c.midTop, c.midMask⟩ :: (levelsIn chs c.midLevel.toNat 255).map (levelSlot c chs)

/-- A command that changes one channel's target and nothing else, on every state (R190-R195). -/
def AdjustsTarget (i : Instr) (op : Byte) (k : Chan) (next : Nat → Nat) : Prop :=
  (∀ rest, decode (op :: rest) = .ok (i, rest)) ∧
  ∀ s : State, ∃ t, exec i s = .next t ∧
    (t.ch.get k).target.toNat = next (s.ch.get k).target.toNat ∧
    t = { s with ch := s.ch.set { s.ch.get k with target := (t.ch.get k).target } k }

/-- A command that changes every channel's target and nothing else. -/
def RewritesTargets (i : Instr) (op : Byte) (value : Channel → Byte) : Prop :=
  (∀ rest, decode (op :: rest) = .ok (i, rest)) ∧
  ∀ s : State, ∃ t, exec i s = .next t ∧ exec i t = .next t ∧
    (∀ k, (t.ch.get k).target = value (s.ch.get k) ∧ t.ch.get k = { s.ch.get k with target := (t.ch.get k).target }) ∧
    t = { s with ch := t.ch }

/-- A command that changes every channel's speed and nothing else. -/
def RewritesSpeeds (i : Instr) (op : Byte) (value : Nat → Nat) : Prop :=
  (∀ rest, decode (op :: rest) = .ok (i, rest)) ∧
  ∀ s : State, ∃ t, exec i s = .next t ∧
    (∀ k, (t.ch.get k).speed.toNat = value (s.ch.get k).speed.toNat ∧
      t.ch.get k = { s.ch.get k with speed := (t.ch.get k).speed }) ∧
    t = { s with ch := t.ch }

/-- No handler runs and no latch is set (R257). -/
def Quiet (s : State) : Prop :=
  s.seq = .idle ∧ s.aPending = false ∧ s.bPending = false

/-- The position after `p` in the foreground loop (R230). -/
def nextPosition : Fg → Fg
  | .checkNewCycle => .checkLastPulse
  | .checkLastPulse => .dispatch
  | .dispatch => .checkNewCycle

end Sys2Proof.Claims

open Sys2Proof Sys2Proof.Machine Sys2Proof.Claims

/-! ## Encoding (30_encoding.md) -/

/-- R83, the opcode map row by row, and its default row. -/
def Obligations.OpcodeMapDecodes : Prop :=
  decodeByte 0x30 = .tgtAllZero ∧ decodeByte 0x31 = .tgt0Dec ∧ decodeByte 0x32 = .tgt1Dec ∧
  decodeByte 0x33 = .tgt2Dec ∧ decodeByte 0x34 = .tgt0Inc ∧ decodeByte 0x35 = .tgt1Inc ∧
  decodeByte 0x36 = .tgt2Inc ∧ decodeByte 0x3D = .tgtHold ∧ decodeByte 0x3E = .speedHalve ∧
  decodeByte 0x3C = .speedDouble ∧ decodeByte 0x73 = .reportSpeed ∧ decodeByte 0x62 = .reportBright ∧
  ∀ op : Byte, op ∉ [0x30#8, 0x31, 0x32, 0x33, 0x34, 0x35, 0x36, 0x3D, 0x3E, 0x3C, 0x73, 0x62] →
    decodeByte op = .ignore op

/-- Decoding an encoded command gives it back, in front of any bytes and over whole command strings. -/
def Obligations.CommandStreamRoundTrip : Prop :=
  (∀ i : Instr, i.wf = true → ∀ rest, decode (encode i ++ rest) = .ok (i, rest)) ∧
  ∀ is : List Instr, (∀ i ∈ is, i.wf = true) → decodeStream (encodeStream is) = is

/-- The other direction: every byte string is a string of well-formed commands, one a byte. That encoding gives the bytes
back rests on the model's choice of log 15, that `ignore` keeps its byte (the spec gives 244 bytes one meaning). -/
def Obligations.ByteStreamRoundTrip : Prop :=
  ∀ bs : List Byte,
    (∀ i ∈ decodeStream bs, i.wf = true) ∧ encodeStream (decodeStream bs) = bs ∧
      (decodeStream bs).length = bs.length

/-! ## The step and the fetch -/

/-- A step runs the decoded command (44_foreground.md section 1): at `Dispatch` the foreground takes one byte and runs the
command it decodes to; with `RX` empty only `fg` moves. That the foreground is the agent that moves is the head of
`script`, the model's own field (log 2). -/
def Obligations.StepRunsDecodedCommand : Prop :=
  ∀ (s : State) (ms : List Move), Quiet s → s.fg = .dispatch → s.script = .foreground :: ms →
    (∀ op rest i, s.rx = op :: rest → decode s.rx = .ok (i, rest) →
      step s = exec i { s with script := ms, rx := rest, fg := .checkNewCycle }) ∧
    (s.rx = [] → step s = .next { s with script := ms, fg := .checkNewCycle })

/-- R233: the foreground's step at `Dispatch`: one byte is taken and its command executed, then `fg` is `CheckNewCycle`; an
empty `RX` makes it a no-op. -/
def Obligations.DispatchStep : Prop :=
  ∀ (c : Config) (s : State), Quiet s → s.fg = .dispatch →
    (∀ op rest, s.rx = op :: rest →
      foregroundStep c s = exec (decodeByte op) { s with rx := rest, fg := .checkNewCycle } ∧
        ∃ t, foregroundStep c s = .next t ∧ t.rx = rest ∧ t.fg = .checkNewCycle) ∧
    (s.rx = [] → foregroundStep c s = .next { s with fg := .checkNewCycle })

/-- The model's choice of who moves (log 2; the spec gives no rule): a step makes the first move of `script`, and with
`script` empty a free one. -/
def Obligations.StepMakesTheChosenMove : Prop :=
  (∀ (s : State) (m : Move) (ms : List Move), s.script = m :: ms → step s = moveStep chip m { s with script := ms }) ∧
  (∀ s : State, s.script = [] →
    step s = moveStep chip (Config.freeMove s.draws) { s with draws := s.draws + 1 })

/-! ## Commands (43_commands.md) -/

/-- R190 to R192: the three target decrements, modulo 256 (`n + 255` is `n - 1` there), everything else unchanged. -/
def Obligations.TargetDecrements : Prop :=
  AdjustsTarget .tgt0Dec 0x31 .c0 (fun n => (n + 255) % 256) ∧
  AdjustsTarget .tgt1Dec 0x32 .c1 (fun n => (n + 255) % 256) ∧
  AdjustsTarget .tgt2Dec 0x33 .c2 (fun n => (n + 255) % 256)

/-- R193 to R195: the three target increments, modulo 256, everything else unchanged. -/
def Obligations.TargetIncrements : Prop :=
  AdjustsTarget .tgt0Inc 0x34 .c0 (fun n => (n + 1) % 256) ∧
  AdjustsTarget .tgt1Inc 0x35 .c1 (fun n => (n + 1) % 256) ∧
  AdjustsTarget .tgt2Inc 0x36 .c2 (fun n => (n + 1) % 256)

/-- R196: every target becomes 0, a second one changes nothing, everything else unchanged. -/
def Obligations.TargetsAllZero : Prop :=
  RewritesTargets .tgtAllZero 0x30 (fun _ => 0)

/-- R197: every target becomes the channel's brightness, a second one changes nothing, everything else unchanged. -/
def Obligations.TargetsHold : Prop :=
  RewritesTargets .tgtHold 0x3D (fun x => x.brightness)

/-- The spec's inference on `TGT_HOLD` (43_commands.md section 1): after it a fade step leaves every channel as it is. -/
def Obligations.HoldFreezesFade : Prop :=
  ∀ s : State, ∃ t, exec .tgtHold s = .next t ∧ (fade t).ch = t.ch

/-- R198: every speed is halved, rounding down, everything else unchanged. -/
def Obligations.SpeedHalves : Prop :=
  RewritesSpeeds .speedHalve 0x3E (fun n => n / 2)

/-- R199: every speed is doubled modulo 65536, everything else unchanged. -/
def Obligations.SpeedDoubles : Prop :=
  RewritesSpeeds .speedDouble 0x3C (fun n => 2 * n % 65536)

/-- R200: the high then the low byte of channel 0's speed go to `TX`, everything else unchanged. -/
def Obligations.ReportsSpeed : Prop :=
  (∀ rest, decode (0x73 :: rest) = .ok (.reportSpeed, rest)) ∧
  ∀ s : State, ∃ hi lo : Byte, hi.toNat = s.ch.c0.speed.toNat / 256 ∧ lo.toNat = s.ch.c0.speed.toNat % 256 ∧
    exec .reportSpeed s = .next { s with tx := s.tx ++ [hi, lo] }

/-- R201: the three brightness bytes go to `TX` in channel order, everything else unchanged. -/
def Obligations.ReportsBrightness : Prop :=
  (∀ rest, decode (0x62 :: rest) = .ok (.reportBright, rest)) ∧
  ∀ s : State, exec .reportBright s = .next { s with tx := s.tx ++ channelList.map (brightnessOf s.ch) }

/-- R202: any byte outside the opcode map is taken and changes nothing. -/
def Obligations.OtherBytesIgnored : Prop :=
  ∀ op : Byte, op ∉ commandBytes →
    (∀ rest, decode (op :: rest) = .ok (.ignore op, rest)) ∧ ∀ s : State, exec (.ignore op) s = .next s

/-- The spec's inference "Commands write only `target`, `speed` and `TX`" (43_commands.md section 5): every command
answers a next state, on every state, and changes nothing else; `TX` only grows. -/
def Obligations.CommandsWriteOnlyTargetSpeedTx : Prop :=
  ∀ (i : Instr) (s : State), ∃ t, exec i s = .next t ∧
    t = { s with ch := t.ch, tx := t.tx } ∧
    (∀ k, (t.ch.get k).brightness = (s.ch.get k).brightness ∧ (t.ch.get k).remainder = (s.ch.get k).remainder) ∧
    ∃ bs, t.tx = s.tx ++ bs

/-! ## Fade (41_fade.md) -/

/-- R131 in exact arithmetic: where the step is accepted, where it clamps (the remainder is then the draw, whatever it
is), and where the byte test does not see a wrap of 2^16. -/
def Obligations.FadeStepExact : Prop :=
  ∀ (d : Byte) (x : Channel),
    (fadeChannel d x).target = x.target ∧ (fadeChannel d x).speed = x.speed ∧
    (x.brightness < x.target →
      (fixedPoint x + x.speed.toNat < 256 * (x.target.toNat + 1) →
        fixedPoint (fadeChannel d x) = fixedPoint x + x.speed.toNat) ∧
      (256 * (x.target.toNat + 1) ≤ fixedPoint x + x.speed.toNat →
        fixedPoint x + x.speed.toNat < 65536 + 256 * x.brightness.toNat →
        (fadeChannel d x).brightness = x.target ∧ (fadeChannel d x).remainder = d) ∧
      (65536 + 256 * x.brightness.toNat ≤ fixedPoint x + x.speed.toNat →
        fixedPoint (fadeChannel d x) + 65536 = fixedPoint x + x.speed.toNat)) ∧
    (x.target < x.brightness →
      (256 * x.target.toNat + x.speed.toNat ≤ fixedPoint x →
        fixedPoint (fadeChannel d x) + x.speed.toNat = fixedPoint x) ∧
      (fixedPoint x < 256 * x.target.toNat + x.speed.toNat →
        x.speed.toNat < 65281 + x.remainder.toNat →
        (fadeChannel d x).brightness = x.target ∧ (fadeChannel d x).remainder = d) ∧
      (65281 + x.remainder.toNat ≤ x.speed.toNat →
        fixedPoint (fadeChannel d x) + x.speed.toNat = fixedPoint x + 65536)) ∧
    (x.brightness = x.target → fadeChannel d x = x)

/-- The spec's inference on speed 0 (41_fade.md, "the fade is frozen until speed changes"). -/
def Obligations.FadeFrozenAtSpeedZero : Prop :=
  ∀ (d : Byte) (x : Channel), x.speed = 0 → fadeChannel d x = x

/-- The spec's inference on the wrap the byte test does not see (41_fade.md): brightness stays, the remainder falls
(fading up) or rises (fading down). -/
def Obligations.FadeUnseenWrap : Prop :=
  ∀ (d : Byte) (x : Channel),
    (x.brightness < x.target → 65536 ≤ x.speed.toNat + x.remainder.toNat →
      (fadeChannel d x).brightness = x.brightness ∧
      (fadeChannel d x).remainder.toNat + 65536 = x.remainder.toNat + x.speed.toNat ∧
      (fadeChannel d x).remainder < x.remainder) ∧
    (x.target < x.brightness → 65281 + x.remainder.toNat ≤ x.speed.toNat →
      (fadeChannel d x).brightness = x.brightness ∧
      (fadeChannel d x).remainder.toNat + x.speed.toNat = x.remainder.toNat + 65536 ∧
      x.remainder < (fadeChannel d x).remainder)

/-- The source's property 1 (95_test_vectors.md): the new brightness lies between the old one and the target. -/
def Obligations.FadeMonotoneNoOvershoot : Prop :=
  ∀ (d : Byte) (x : Channel),
    (x.brightness ≤ x.target →
      x.brightness ≤ (fadeChannel d x).brightness ∧ (fadeChannel d x).brightness ≤ x.target) ∧
    (x.target ≤ x.brightness →
      x.target ≤ (fadeChannel d x).brightness ∧ (fadeChannel d x).brightness ≤ x.brightness)

/-- The spec's inference "Fade duration, exact for a fixed target and speed" (41_fade.md): the number of fade steps after
which brightness first equals the target, whatever remainders are drawn. `(n + s - 1) / s` is `ceil(n / s)`. -/
def Obligations.FadeDurationExact : Prop :=
  ∀ (draw : Nat → Byte) (x : Channel), 1 ≤ x.speed.toNat → x.speed.toNat ≤ 65280 →
    (x.brightness < x.target →
      ∀ n, n = (256 * x.target.toNat - fixedPoint x + x.speed.toNat - 1) / x.speed.toNat →
        (fadeTimes draw n x).brightness = x.target ∧ ∀ k < n, (fadeTimes draw k x).brightness ≠ x.target) ∧
    (x.target < x.brightness →
      ∀ n, n = (fixedPoint x - 256 * x.target.toNat - 255 + x.speed.toNat - 1) / x.speed.toNat →
        (fadeTimes draw n x).brightness = x.target ∧ ∀ k < n, (fadeTimes draw k x).brightness ≠ x.target)

/-! ## Scheduler (40_gamma_scheduler.md) -/

/-- What a rebuild writes (40_gamma_scheduler.md section 2). The slots are those of `Claims.schedule`, the level-by-level
reading of the walk, which uses the spec's own inferences on collapse, marker and `count`; entries past `count` are not
written. -/
def Obligations.RebuildWritesTheSchedule : Prop :=
  ∀ (c : Config) (s : State), 0 < c.midLevel.toNat →
    (rebuild c s).count.toNat = (schedule c s.ch).length ∧
    (∀ i < (schedule c s.ch).length, (rebuild c s).slots.get? i = (schedule c s.ch)[i]?) ∧
    (∀ i, (schedule c s.ch).length ≤ i → (rebuild c s).slots.get? i = s.slots.get? i) ∧
    (∀ i < 8, (rebuild c s).initialBitmask.getLsbD i =
      !channelList.any fun k => decide (0 < brightnessOf s.ch k) && (c.chMask k).getLsbD i) ∧
    (rebuild c s).index = 0 ∧ (rebuild c s).nextBitmask = 0 ∧
    rebuild c s =
      { s with
        slots := (rebuild c s).slots
        count := (rebuild c s).count
        initialBitmask := (rebuild c s).initialBitmask
        index := (rebuild c s).index
        nextBitmask := (rebuild c s).nextBitmask }

/-- R117: the initial port value, bit by bit. -/
def Obligations.InitialBitmaskBits : Prop :=
  ∀ (c : Config) (s : State), c.MasksAdmitted →
    (∀ k, (rebuild c s).initialBitmask &&& c.chMask k = 0 ↔ 0 < (s.ch.get k).brightness) ∧
    (∀ i < 8, (∀ k, (c.chMask k).getLsbD i = false) → (rebuild c s).initialBitmask.getLsbD i = true)

/-- The spec's inference on `count` (40_gamma_scheduler.md): one plus the number of distinct brightness values in
`[1, 254]`, so 1 to 4. -/
def Obligations.RebuildCount : Prop :=
  ∀ s : State,
    (rebuild chip s).count.toNat =
      1 + ((channelList.map (brightnessOf s.ch)).filter fun b => 0 < b && b < 255).dedup.length ∧
    1 ≤ (rebuild chip s).count.toNat ∧ (rebuild chip s).count.toNat ≤ 4

/-- The spec's inferences on the marker and on the order of the slots (40_gamma_scheduler.md, and the source's property
2): one marker, between the pre-wrap and the post-wrap slots; tops rise strictly within each half; each channel slot's
mask contains the one before it; no mask is 0. -/
def Obligations.ScheduleShape : Prop :=
  ∀ (c : Config) (chs : Channels), c.Admitted → 0 < c.midLevel.toNat →
    ∃ pre post : List Slot,
      builtSlots c chs = pre ++ marker c :: post ∧
      (pre = [] ↔ ∀ k, ¬(0 < brightnessOf chs k ∧ brightnessOf chs k < c.midLevel ∧ brightnessOf chs k < 255)) ∧
      (post = [] ↔ ∀ k, ¬(c.midLevel ≤ brightnessOf chs k ∧ brightnessOf chs k < 255)) ∧
      (∀ sl ∈ pre ++ post, 1#16 ≤ sl.top ∧ sl.top < c.aTop ∧ sl.mask ≠ 0) ∧
      pre.Pairwise (fun a b => a.top < b.top) ∧ post.Pairwise (fun a b => a.top < b.top) ∧
      (pre ++ post).Pairwise (fun a b => a.mask &&& b.mask = a.mask)

/-- Channels at the extreme levels (40_gamma_scheduler.md section 2): in the schedule of one rebuild a channel at 0 or 255 is
in no channel slot's mask, and which of the two it is changes no slot. -/
def Obligations.ExtremeLevelsGiveNoSlot : Prop :=
  ∀ (c : Config) (chs : Channels) (k : Chan), c.Admitted →
    ((brightnessOf chs k = 0 ∨ brightnessOf chs k = 255) →
      ∀ sl ∈ builtSlots c chs, sl ≠ marker c → sl.mask &&& c.chMask k = 0) ∧
    builtSlots c (chs.set { chs.get k with brightness := 0 } k) =
      builtSlots c (chs.set { chs.get k with brightness := 255 } k)

/-! ## Sequencer (42_sequencer.md) -/

/-- R152: the micro-steps of the A handler. -/
def Obligations.AHandlerMicroSteps : Prop :=
  ∀ (c : Config) (s : State),
    (s.seq = .aStart1 → s.nextBitmask = 0 →
      sequencerStep c s = .next { s with port := s.initialBitmask, newCycle := true, seq := .aSpin }) ∧
    (s.seq = .aStart1 → s.nextBitmask ≠ 0 → sequencerStep c s = .next { s with seq := .aPrep }) ∧
    (∀ sl, s.seq = .aSpin → s.slots.get? s.index.toNat = some sl →
      (sl.top.toNat < s.tcnt.toNat + c.guard.toNat → sequencerStep c s = .next { s with seq := .aSpinWait }) ∧
      (s.tcnt.toNat + c.guard.toNat ≤ sl.top.toNat → sequencerStep c s = .next { s with seq := .aPrep })) ∧
    (∀ sl, s.seq = .aSpinWait → s.slots.get? s.index.toNat = some sl →
      (sl.top.toNat ≤ s.tcnt.toNat →
        sequencerStep c s = .next { s with port := s.port ||| sl.mask, index := s.index + 1, seq := .aSpin }) ∧
      (s.tcnt.toNat < sl.top.toNat → sequencerStep c s = .next s)) ∧
    (s.seq = .aPrep → sequencerStep c s = prepare c { s with seq := .idle })

/-- R159: the two branches of slot preparation, and that it latches nothing. -/
def Obligations.PrepareBranches : Prop :=
  ∀ (c : Config) (s : State),
    (s.count.toNat ≤ s.index.toNat →
      prepare c s = .next { s with index := 0, lastPulse := true, ocrb := c.bOff }) ∧
    (∀ sl, s.index.toNat < s.count.toNat → s.slots.get? s.index.toNat = some sl →
      ∃ t, prepare c s = .next t ∧ t.index.toNat = s.index.toNat + 1 ∧
        t = { s with ocrb := sl.top, nextBitmask := sl.mask, index := t.index })

/-- The B handler (42_sequencer.md section 2) ORs the staged mask into the port and prepares the next slot; a staged mask
of 0 changes no port bit, and the marker's mask, staged while compare B is out of reach, is not ORed (log 14). -/
def Obligations.BHandlerStep : Prop :=
  ∀ (c : Config) (s : State), s.seq = .bRun →
    (¬(s.nextBitmask = c.midMask ∧ c.aTop < s.ocrb) →
      sequencerStep c s = prepare c { s with port := s.port ||| s.nextBitmask, seq := .idle }) ∧
    (s.nextBitmask = c.midMask → c.aTop < s.ocrb → sequencerStep c s = prepare c { s with seq := .idle }) ∧
    (s.nextBitmask = 0 → sequencerStep c s = prepare c { s with seq := .idle })

/-- The order in which slot preparation stages a schedule (42_sequencer.md section 4): the entries from 0 on, and then
`last_pulse`. -/
def Obligations.PrepareWalksTheSchedule : Prop :=
  ∀ (c : Config) (s : State), s.index = 0 → 1 ≤ s.count.toNat → s.count.toNat ≤ 4 →
    (∀ n sl, n < s.count.toNat → s.slots.get? n = some sl →
      ∃ t, prepareTimes c (n + 1) s = .next t ∧ t.index.toNat = n + 1 ∧
        t = { s with ocrb := sl.top, nextBitmask := sl.mask, index := t.index }) ∧
    ∃ t, prepareTimes c (s.count.toNat + 1) s = .next t ∧ t.index = 0 ∧ t.lastPulse = true ∧ t.ocrb = c.bOff ∧
      (∀ sl, s.slots.get? (s.count.toNat - 1) = some sl → t.nextBitmask = sl.mask) ∧
      t = { s with index := 0, lastPulse := true, ocrb := c.bOff, nextBitmask := t.nextBitmask }

/-- The A event of a mid-cycle wrap, or after a missed deadline (42_sequencer.md): with `next_bitmask` not 0 the handler
only prepares the next slot; the port and `new_cycle` are not touched. -/
def Obligations.WrapOnlyPrepares : Prop :=
  ∀ (c : Config) (s : State) (sl : Slot), s.seq = .idle → s.aPending = true → s.nextBitmask ≠ 0 →
    s.index.toNat < s.count.toNat → s.slots.get? s.index.toNat = some sl →
    ∃ t, runMoves c [.sequencer, .sequencer, .sequencer] s = .next t ∧
      t = { s with
        aPending := false, ocrb := sl.top, nextBitmask := sl.mask, index := s.index + 1, faults := t.faults } ∧
      (s.lastPulse = false → t.faults = s.faults)

/-- The A event of a cycle start whose first slot is not yet near: the port is written whole, `new_cycle` is set, and the
slot is staged. -/
def Obligations.CycleStartStagesFirstSlot : Prop :=
  ∀ (c : Config) (s : State) (sl : Slot), s.seq = .idle → s.aPending = true → s.nextBitmask = 0 →
    s.index.toNat < s.count.toNat → s.slots.get? s.index.toNat = some sl →
    s.tcnt.toNat + c.guard.toNat ≤ sl.top.toNat →
    ∃ t, runMoves c [.sequencer, .sequencer, .sequencer, .sequencer] s = .next t ∧
      t = { s with
        aPending := false, port := s.initialBitmask, newCycle := true, ocrb := sl.top, nextBitmask := sl.mask,
        index := s.index + 1, faults := t.faults } ∧
      (s.lastPulse = false → t.faults = s.faults)

/-- The spec's inference that every wait of the spin ends within its half-cycle (42_sequencer.md section 1, "bounded by one
timer half-period"). -/
def Obligations.SpinWaitEnds : Prop :=
  ∀ s : State, Inv chip s → s.seq = .aSpinWait →
    ∃ n, s.tcnt.toNat + n ≤ 64000 ∧ sequencerEnabled (ticks chip n s) ∧
      (ticks chip n s).tcnt.toNat = s.tcnt.toNat + n

/-- The spec's inferences on the event order and on what a cycle shows on the port (42_sequencer.md section 4,
40_gamma_scheduler.md section 3), for one whole PWM cycle with no missed deadline and no spin (a cycle whose first slot is
near is left out: its micro-steps are `AHandlerMicroSteps`, its waits `SpinWaitEnds`), event by event: after the rebuild and the `count + 1` events of the cycle exactly the channels at 255
are lit, `last_pulse` is raised, `OCRB` is off, and no fault is recorded. -/
def Obligations.WholeCycleOfEvents : Prop :=
  ∀ (c : Config) (s : State) (sl : Slot), c.Admitted → 0 < c.midLevel.toNat → c.midMask ≠ 0 →
    Quiet s → s.lastPulse = false → c.aTop < s.ocrb →
    (rebuild c s).slots.get? 0 = some sl → s.tcnt.toNat + c.guard.toNat ≤ sl.top.toNat →
    (∃ t, serveEvents c 1 (rebuild c s) = .next t ∧ t.port = (rebuild c s).initialBitmask) ∧
    ∃ t, serveEvents c ((rebuild c s).count.toNat + 1) (rebuild c s) = .next t ∧
      (∀ k, t.port &&& c.chMask k = 0 ↔ (s.ch.get k).brightness = 255) ∧
      t.lastPulse = true ∧ t.newCycle = true ∧ t.index = 0 ∧ t.ocrb = c.bOff ∧ Quiet t ∧ t.faults = s.faults

/-- R163: who writes the port, and how. -/
def Obligations.PortWrittenOnlyByHandlers : Prop :=
  ∀ (c : Config) (m : Move) (s t : State), moveStep c m s = .next t →
    (m ≠ .sequencer → t.port = s.port) ∧
    (t.port = s.port ∨
      (s.seq = .aStart1 ∧ s.nextBitmask = 0 ∧ t.port = s.initialBitmask) ∨
      (s.seq = .aSpinWait ∧ ∃ sl, s.slots.get? s.index.toNat = some sl ∧ t.port = s.port ||| sl.mask) ∨
      (s.seq = .bRun ∧ t.port = s.port ||| s.nextBitmask))

/-! ## Foreground (44_foreground.md) -/

/-- R231: the step at `CheckNewCycle`, for whatever remainders are drawn. -/
def Obligations.CheckNewCycleStep : Prop :=
  ∀ (c : Config) (s : State), Quiet s → s.fg = .checkNewCycle →
    (s.newCycle = true →
      ∃ d0 d1 d2 n, foregroundStep c s = .next { s with
        newCycle := false, fg := .checkLastPulse, draws := n
        ch := ⟨fadeChannel d0 s.ch.c0, fadeChannel d1 s.ch.c1, fadeChannel d2 s.ch.c2⟩ }) ∧
    (s.newCycle = false → foregroundStep c s = .next { s with fg := .checkLastPulse })

/-- R232: the step at `CheckLastPulse`; the diagnostic byte is the new `count`, 1 to 4. -/
def Obligations.CheckLastPulseStep : Prop :=
  ∀ s : State, Quiet s → s.fg = .checkLastPulse →
    (s.lastPulse = true →
      ∃ n : Byte, n = (rebuild chip s).count ∧ 1 ≤ n.toNat ∧ n.toNat ≤ 4 ∧
        foregroundStep chip s =
          .next { rebuild chip s with lastPulse := false, fg := .dispatch, tx := s.tx ++ [n] }) ∧
    (s.lastPulse = false → foregroundStep chip s = .next { s with fg := .dispatch })

/-- The loop's positions follow each other, one step at each (44_foreground.md). -/
def Obligations.ForegroundCyclesPositions : Prop :=
  ∀ (c : Config) (s : State), Quiet s → ∃ t, foregroundStep c s = .next t ∧ t.fg = nextPosition s.fg

/-- R235: what the foreground never writes, and that it writes the schedule only in a rebuild. -/
def Obligations.ForegroundNeverWritesPortOrTimer : Prop :=
  ∀ (c : Config) (s t : State), foregroundStep c s = .next t →
    (t.port = s.port ∧ t.ocrb = s.ocrb ∧ t.tcnt = s.tcnt ∧ t.aPending = s.aPending ∧ t.bPending = s.bPending) ∧
    ((t.slots = s.slots ∧ t.count = s.count ∧ t.index = s.index ∧ t.nextBitmask = s.nextBitmask ∧
        t.initialBitmask = s.initialBitmask) ∨
      (s.fg = .checkLastPulse ∧ s.lastPulse = true ∧ t.slots = (rebuild c s).slots ∧ t.count = (rebuild c s).count ∧
        t.index = 0 ∧ t.nextBitmask = 0 ∧ t.initialBitmask = (rebuild c s).initialBitmask))

/-! ## Timer, interrupts, faults, host (60_exceptions.md, 10_state.md) -/

/-- R250: one tick, its frame, and the period of `A_TOP + 1` ticks. -/
def Obligations.TimerTick : Prop :=
  ∀ (c : Config) (s : State),
    tick c s = { s with
      tcnt := (tick c s).tcnt, aPending := (tick c s).aPending, bPending := (tick c s).bPending } ∧
    (s.tcnt = c.aTop → (tick c s).tcnt = 0 ∧ (tick c s).aPending = true) ∧
    (s.tcnt ≠ c.aTop → (tick c s).tcnt = s.tcnt + 1 ∧ (tick c s).aPending = s.aPending) ∧
    ((tick c s).tcnt = s.ocrb → (tick c s).bPending = true) ∧
    ((tick c s).tcnt ≠ s.ocrb → (tick c s).bPending = s.bPending) ∧
    (s.tcnt = 0 → s.aPending = false →
      (∀ n ≤ c.aTop.toNat, (ticks c n s).tcnt.toNat = n ∧ (ticks c n s).aPending = false) ∧
      (ticks c (c.aTop.toNat + 1) s).tcnt = 0 ∧ (ticks c (c.aTop.toNat + 1) s).aPending = true)

/-- R252: the exact tick of a B match, that a value above `A_TOP` never matches, and that slot preparation, the one
writer of `OCRB`, latches nothing. -/
def Obligations.CompareBMatch : Prop :=
  (∀ (c : Config) (s : State) (d : Nat), s.tcnt.toNat ≤ c.aTop.toNat → s.ocrb.toNat ≤ c.aTop.toNat →
    s.bPending = false →
    d = (if s.tcnt.toNat < s.ocrb.toNat then s.ocrb.toNat - s.tcnt.toNat
      else c.aTop.toNat + 1 - s.tcnt.toNat + s.ocrb.toNat) →
    (∀ k < d, (ticks c k s).bPending = false) ∧ (ticks c d s).bPending = true) ∧
  (∀ (c : Config) (s : State) (n : Nat), s.tcnt.toNat ≤ c.aTop.toNat → c.aTop.toNat < s.ocrb.toNat →
    (ticks c n s).bPending = s.bPending) ∧
  ∀ (c : Config) (s t : State), prepare c s = .next t → t.bPending = s.bPending ∧ t.aPending = s.aPending

/-- The spec's inference on simultaneous matches (60_exceptions.md): in a legal state no one tick sets both latches. -/
def Obligations.NoTickSetsBothLatches : Prop :=
  ∀ s : State, Inv chip s → s.aPending = false → s.bPending = false →
    ¬((tick chip s).aPending = true ∧ (tick chip s).bPending = true)

/-- R256: entry, A before B; it clears its latch, moves the sequencer, records a late rebuild, and changes nothing
else. -/
def Obligations.EnterHandler : Prop :=
  ∀ (c : Config) (s : State), s.seq = .idle →
    (s.aPending = true →
      ∃ fs, (∀ f, f ∈ fs ↔ f ∈ s.faults ∨ (s.lastPulse = true ∧ f = .rebuildLate)) ∧
        sequencerStep c s = .next { s with aPending := false, seq := .aStart1, faults := fs }) ∧
    (s.aPending = false → s.bPending = true →
      sequencerStep c s = .next { s with bPending := false, seq := .bRun })

/-- R257: which agents are held and which move; no handler is entered while another runs; the timer always moves. -/
def Obligations.HeldAgents : Prop :=
  ∀ (c : Config) (s : State),
    (s.seq ≠ .idle ∨ s.aPending = true ∨ s.bPending = true → moveStep c .foreground s = .next s) ∧
    (Quiet s → moveStep c .sequencer s = .next s) ∧
    (Quiet s → ∃ t, moveStep c .foreground s = .next t ∧ t.fg ≠ s.fg) ∧
    (s.seq = .idle → s.aPending = true ∨ s.bPending = true →
      ∃ t, moveStep c .sequencer s = .next t ∧ t.seq ≠ .idle) ∧
    (∀ t, s.seq ≠ .idle → moveStep c .sequencer s = .next t →
      t.aPending = s.aPending ∧ t.bPending = s.bPending ∧ t.seq ≠ .aStart1 ∧ t.seq ≠ .bRun) ∧
    (c.aTop ≠ 0 → ∃ t, moveStep c .tick s = .next t ∧ t.tcnt ≠ s.tcnt)

/-- R28: who sets and who clears `new_cycle`, and its reset value. -/
def Obligations.NewCycleWriters : Prop :=
  State.reset.newCycle = false ∧
  ∀ (c : Config) (m : Move) (s t : State), moveStep c m s = .next t →
    (s.newCycle = false → t.newCycle = true → m = .sequencer ∧ s.seq = .aStart1 ∧ s.nextBitmask = 0) ∧
    (s.newCycle = true → t.newCycle = false → m = .foreground ∧ Quiet s ∧ s.fg = .checkNewCycle) ∧
    (m = .foreground → Quiet s → s.fg = .checkNewCycle → t.newCycle = false)

/-- R29: who sets and who clears `last_pulse`, and its reset value. -/
def Obligations.LastPulseWriters : Prop :=
  State.reset.lastPulse = false ∧
  ∀ (c : Config) (m : Move) (s t : State), moveStep c m s = .next t →
    (s.lastPulse = false → t.lastPulse = true →
      m = .sequencer ∧ (s.seq = .aPrep ∨ s.seq = .bRun) ∧ s.count ≤ s.index) ∧
    (s.lastPulse = true → t.lastPulse = false → m = .foreground ∧ Quiet s ∧ s.fg = .checkLastPulse) ∧
    (m = .foreground → Quiet s → s.fg = .checkLastPulse → t.lastPulse = false)

/-- R33: who sets and who clears the two latches, and their reset values. -/
def Obligations.LatchWriters : Prop :=
  State.reset.aPending = false ∧ State.reset.bPending = false ∧
  ∀ (c : Config) (m : Move) (s t : State), moveStep c m s = .next t →
    (s.aPending = false → t.aPending = true → m = .tick ∧ s.tcnt = c.aTop) ∧
    (s.aPending = true → t.aPending = false → m = .sequencer ∧ s.seq = .idle ∧ t.seq = .aStart1) ∧
    (s.bPending = false → t.bPending = true → m = .tick ∧ t.tcnt = s.ocrb) ∧
    (s.bPending = true → t.bPending = false → m = .sequencer ∧ s.seq = .idle ∧ t.seq = .bRun)

/-- The access table of 10_state.md section 9, its writes: what each agent leaves unchanged. -/
def Obligations.AgentFrames : Prop :=
  ∀ (c : Config) (s t : State),
    (moveStep c .tick s = .next t → t = { s with tcnt := t.tcnt, aPending := t.aPending, bPending := t.bPending }) ∧
    (moveStep c .sequencer s = .next t →
      t = { s with
        ocrb := t.ocrb, aPending := t.aPending, bPending := t.bPending, port := t.port, index := t.index,
        nextBitmask := t.nextBitmask, newCycle := t.newCycle, lastPulse := t.lastPulse, seq := t.seq,
        faults := t.faults }) ∧
    (moveStep c .foreground s = .next t →
      t = { s with
        ch := t.ch, slots := t.slots, count := t.count, index := t.index, nextBitmask := t.nextBitmask,
        initialBitmask := t.initialBitmask, newCycle := t.newCycle, lastPulse := t.lastPulse, rx := t.rx, tx := t.tx,
        fg := t.fg, draws := t.draws }) ∧
    (∀ b, moveStep c (.hostSend b) s = .next t → t = { s with rx := s.rx ++ [b] }) ∧
    (moveStep c .hostTake s = .next t → t = { s with tx := s.tx.tail })

/-- "ISRs never read `brightness`" (41_fade.md): the timer and the sequencer do the same whatever the channel registers
hold. -/
def Obligations.HandlersNeverReadChannels : Prop :=
  ∀ (c : Config) (m : Move) (s : State) (chs : Channels), m = .tick ∨ m = .sequencer →
    moveStep c m { s with ch := chs } = mapNext (fun t => { t with ch := chs }) (moveStep c m s)

/-- The queues (10_state.md, 20_memory.md): `RX` is appended by the host and loses its head only to an enabled
`Dispatch`; `TX` loses its head only to the host and is appended only by the foreground. -/
def Obligations.QueueDiscipline : Prop :=
  ∀ (c : Config) (m : Move) (s t : State), moveStep c m s = .next t →
    (t.rx = s.rx ∨ (∃ b, m = .hostSend b ∧ t.rx = s.rx ++ [b]) ∨
      (m = .foreground ∧ Quiet s ∧ s.fg = .dispatch ∧ ∃ b, s.rx = b :: t.rx)) ∧
    (t.tx = s.tx ∨ (m = .hostTake ∧ ∃ b, s.tx = b :: t.tx) ∨
      (m = .foreground ∧ Quiet s ∧ ∃ bs, t.tx = s.tx ++ bs))

/-- R272: a recorded fault stays, whichever agent moves, and `RebuildLate` is recorded by entry of the A handler
while `last_pulse` is 1, and by nothing else. -/
def Obligations.FaultsStayRecorded : Prop :=
  ∀ (c : Config) (m : Move) (s t : State), moveStep c m s = .next t →
    (∀ f ∈ s.faults, f ∈ t.faults) ∧
    (m = .sequencer → s.seq = .idle → s.aPending = true → s.lastPulse = true → .rebuildLate ∈ t.faults) ∧
    (∀ f ∈ t.faults, f ∉ s.faults →
      f = .rebuildLate ∧ m = .sequencer ∧ s.seq = .idle ∧ s.aPending = true ∧ s.lastPulse = true ∧ t.seq = .aStart1)

/-- What the host can do (60_exceptions.md section 6). The last clause, a take from an empty `TX`, is the model's choice of
log 10: the spec says nothing of it. -/
def Obligations.HostMoves : Prop :=
  ∀ (c : Config) (s : State),
    (∀ b, moveStep c (.hostSend b) s = .next { s with rx := s.rx ++ [b] }) ∧
    (∀ b bs, s.tx = b :: bs → moveStep c .hostTake s = .next { s with tx := bs }) ∧
    (s.tx = [] → moveStep c .hostTake s = .next s)

/-- A configuration that breaks the constraints of 00_scope.md has no run; the machine's own configuration, whose gamma
table the model restricts to those constraints (log 4), is never refused. -/
def Obligations.BadConfigRefused : Prop :=
  (∀ (c : Config) (s : State), ¬c.Admitted → stepUnder c s = .refused .badConfig) ∧
  ∀ s : State, step s = stepUnder chip s ∧ stepUnder chip s ≠ .refused .badConfig

/-! ## Reset (70_reset_and_hazards.md) -/

/-- R290: the reset state is what the reset sequence leaves: the register values of step (1), whatever the schedule held,
then a rebuild, then `'B'`. -/
def Obligations.ResetSequence : Prop :=
  (∀ k, State.reset.ch.get k = { brightness := 0, remainder := 0, target := 0, speed := 0x0100 }) ∧
  State.reset.newCycle = false ∧ State.reset.lastPulse = false ∧ State.reset.tcnt = 0 ∧
  State.reset.ocrb = chip.bOff ∧ State.reset.aPending = false ∧ State.reset.bPending = false ∧
  State.reset.port = 0xFF ∧ State.reset.tx = [0x42] ∧ State.reset.seq = .idle ∧ State.reset.fg = .checkNewCycle ∧
  State.reset.faults = [] ∧
  State.reset.slots = ⟨⟨65000, 0xFF⟩, ⟨0, 0⟩, ⟨0, 0⟩, ⟨0, 0⟩⟩ ∧ State.reset.count = 1 ∧
  State.reset.initialBitmask = 0xFF ∧ State.reset.index = 0 ∧ State.reset.nextBitmask = 0 ∧
  ∀ (s0 : Slot) (n i nb ib : Byte),
    emit [0x42]
      (rebuild chip
        { State.reset with
          slots := ⟨s0, ⟨0, 0⟩, ⟨0, 0⟩, ⟨0, 0⟩⟩, count := n, index := i, nextBitmask := nb, initialBitmask := ib, tx := [] }) =
      State.reset

/-- The spec's inference on the first A event (70_reset_and_hazards.md): it comes 64001 ticks after reset and is a cycle
start. -/
def Obligations.FirstAEvent : Prop :=
  (∀ n ≤ 64000, (ticks chip n State.reset).aPending = false ∧ (ticks chip n State.reset).tcnt.toNat = n) ∧
  (ticks chip 64001 State.reset).aPending = true ∧ (ticks chip 64001 State.reset).tcnt = 0 ∧
  ∃ t, runMoves chip [.sequencer, .sequencer] (ticks chip 64001 State.reset) = .next t ∧
    t.newCycle = true ∧ t.port = State.reset.initialBitmask ∧ t.faults = []

/-! ## Whole machine -/

/-- The reset state is legal; and its `RX` is empty, which is the model's choice of log 16 (the spec: whatever the host
supplies, empty unless the host appends). -/
def Obligations.ResetIsLegal : Prop :=
  Inv chip State.reset ∧ State.reset.rx = []

/-- Every step from a legal state leads to a legal state: the counter stays in `0..A_TOP`, `count` in 1 to 4, the cursor in
`0..count`, the entries in use stay legal with a marker among them, and the spin stays before the marker. -/
def Obligations.StepKeepsLegal : Prop :=
  ∀ s t : State, Inv chip s → step s = .next t → Inv chip t

/-- "Nothing is fatal; the core runs indefinitely" (R14): from a legal state every step answers a next state, and so does
any number of steps. -/
def Obligations.LegalStatesNeverStop : Prop :=
  ∀ s : State, Inv chip s → (∃ t, step s = .next t) ∧ ∀ n, ∃ t, Host.Core.run core n s = .next t ∧ Inv chip t

/-- The spec's inference "The marker's mask 0xFF is never ORed into `PORT`" (42_sequencer.md section 2), from reset on and
through every step; that it holds also where an older B event outlives the marker's staging is the ruling of
90_conflicts.md C5 as log 14 reads it. Such an event comes only of a slot preparation over a waiting B event. -/
def Obligations.MarkerMaskNeverOred : Prop :=
  (MarkerClear chip State.reset ∧ NoOldB chip State.reset) ∧
  ∀ s t : State, MarkerClear chip s → step s = .next t →
    (t.port = s.port ∨ (s.seq = .aStart1 ∧ t.port = s.initialBitmask) ∨
      ∃ m, WithinChannels chip m ∧ m ≠ chip.midMask ∧ t.port = s.port ||| m) ∧
    MarkerClear chip t ∧
    (NoOldB chip s → ¬PreparesOverB s → NoOldB chip t)
end

