-- ==== Sys2Proof/Laws/Bytes.lean ====
section
/-! SUPPORT. The byte operations of 00_scope.md R10 in natural numbers. -/

namespace Sys2Proof.Laws

open Sys2Proof.Machine

theorem high_toNat (v : Word) : (high v).toNat = v.toNat / 256 := by
  have : v.toNat < 65536 := v.isLt
  simp [high, BitVec.extractLsb'_toNat, Nat.shiftRight_eq_div_pow]
  omega

theorem low_toNat (v : Word) : (low v).toNat = v.toNat % 256 := by
  simp [low, BitVec.extractLsb'_toNat]

theorem join_toNat (a b : Byte) : (join a b).toNat = 256 * a.toNat + b.toNat := by
  have ha : a.toNat < 256 := a.isLt
  have hb : b.toNat < 256 := b.isLt
  unfold join
  rw [BitVec.toNat_or, BitVec.toNat_shiftLeft]
  simp only [BitVec.toNat_setWidth]
  rw [Nat.mod_eq_of_lt (by omega : a.toNat < 2 ^ 16), Nat.mod_eq_of_lt (by omega : b.toNat < 2 ^ 16)]
  rw [Nat.mod_eq_of_lt (by rw [Nat.shiftLeft_eq]; omega), Nat.shiftLeft_eq, Nat.mul_comm]
  exact (Nat.two_pow_add_eq_or_of_lt (i := 8) hb a.toNat).symm

theorem high_join (a b : Byte) : high (join a b) = a := by
  have hb : b.toNat < 256 := b.isLt
  apply BitVec.eq_of_toNat_eq
  rw [high_toNat, join_toNat]
  omega

theorem low_join (a b : Byte) : low (join a b) = b := by
  have hb : b.toNat < 256 := b.isLt
  apply BitVec.eq_of_toNat_eq
  rw [low_toNat, join_toNat]
  omega

end Sys2Proof.Laws
end

