-- ==== Sys2Proof/Laws/State.lean ====
section
/-! SUPPORT. What each named update of the state leaves in each field: one lemma per field per update, true by rfl, so that
no later proof unfolds a record update. -/

namespace Sys2Proof.Machine

/-! ### setNewCycle -/

@[simp] theorem setNewCycle_ch (s : State) : (setNewCycle s).ch = s.ch := rfl
@[simp] theorem setNewCycle_slots (s : State) : (setNewCycle s).slots = s.slots := rfl
@[simp] theorem setNewCycle_count (s : State) : (setNewCycle s).count = s.count := rfl
@[simp] theorem setNewCycle_index (s : State) : (setNewCycle s).index = s.index := rfl
@[simp] theorem setNewCycle_nextBitmask (s : State) : (setNewCycle s).nextBitmask = s.nextBitmask := rfl
@[simp] theorem setNewCycle_initialBitmask (s : State) : (setNewCycle s).initialBitmask = s.initialBitmask := rfl
@[simp] theorem setNewCycle_newCycle (s : State) : (setNewCycle s).newCycle = true := rfl
@[simp] theorem setNewCycle_lastPulse (s : State) : (setNewCycle s).lastPulse = s.lastPulse := rfl
@[simp] theorem setNewCycle_tcnt (s : State) : (setNewCycle s).tcnt = s.tcnt := rfl
@[simp] theorem setNewCycle_ocrb (s : State) : (setNewCycle s).ocrb = s.ocrb := rfl
@[simp] theorem setNewCycle_aPending (s : State) : (setNewCycle s).aPending = s.aPending := rfl
@[simp] theorem setNewCycle_bPending (s : State) : (setNewCycle s).bPending = s.bPending := rfl
@[simp] theorem setNewCycle_port (s : State) : (setNewCycle s).port = s.port := rfl
@[simp] theorem setNewCycle_rx (s : State) : (setNewCycle s).rx = s.rx := rfl
@[simp] theorem setNewCycle_tx (s : State) : (setNewCycle s).tx = s.tx := rfl
@[simp] theorem setNewCycle_seq (s : State) : (setNewCycle s).seq = s.seq := rfl
@[simp] theorem setNewCycle_fg (s : State) : (setNewCycle s).fg = s.fg := rfl
@[simp] theorem setNewCycle_faults (s : State) : (setNewCycle s).faults = s.faults := rfl
@[simp] theorem setNewCycle_script (s : State) : (setNewCycle s).script = s.script := rfl
@[simp] theorem setNewCycle_draws (s : State) : (setNewCycle s).draws = s.draws := rfl

/-! ### clearNewCycle -/

@[simp] theorem clearNewCycle_ch (s : State) : (clearNewCycle s).ch = s.ch := rfl
@[simp] theorem clearNewCycle_slots (s : State) : (clearNewCycle s).slots = s.slots := rfl
@[simp] theorem clearNewCycle_count (s : State) : (clearNewCycle s).count = s.count := rfl
@[simp] theorem clearNewCycle_index (s : State) : (clearNewCycle s).index = s.index := rfl
@[simp] theorem clearNewCycle_nextBitmask (s : State) : (clearNewCycle s).nextBitmask = s.nextBitmask := rfl
@[simp] theorem clearNewCycle_initialBitmask (s : State) : (clearNewCycle s).initialBitmask = s.initialBitmask := rfl
@[simp] theorem clearNewCycle_newCycle (s : State) : (clearNewCycle s).newCycle = false := rfl
@[simp] theorem clearNewCycle_lastPulse (s : State) : (clearNewCycle s).lastPulse = s.lastPulse := rfl
@[simp] theorem clearNewCycle_tcnt (s : State) : (clearNewCycle s).tcnt = s.tcnt := rfl
@[simp] theorem clearNewCycle_ocrb (s : State) : (clearNewCycle s).ocrb = s.ocrb := rfl
@[simp] theorem clearNewCycle_aPending (s : State) : (clearNewCycle s).aPending = s.aPending := rfl
@[simp] theorem clearNewCycle_bPending (s : State) : (clearNewCycle s).bPending = s.bPending := rfl
@[simp] theorem clearNewCycle_port (s : State) : (clearNewCycle s).port = s.port := rfl
@[simp] theorem clearNewCycle_rx (s : State) : (clearNewCycle s).rx = s.rx := rfl
@[simp] theorem clearNewCycle_tx (s : State) : (clearNewCycle s).tx = s.tx := rfl
@[simp] theorem clearNewCycle_seq (s : State) : (clearNewCycle s).seq = s.seq := rfl
@[simp] theorem clearNewCycle_fg (s : State) : (clearNewCycle s).fg = s.fg := rfl
@[simp] theorem clearNewCycle_faults (s : State) : (clearNewCycle s).faults = s.faults := rfl
@[simp] theorem clearNewCycle_script (s : State) : (clearNewCycle s).script = s.script := rfl
@[simp] theorem clearNewCycle_draws (s : State) : (clearNewCycle s).draws = s.draws := rfl

/-! ### setLastPulse -/

@[simp] theorem setLastPulse_ch (s : State) : (setLastPulse s).ch = s.ch := rfl
@[simp] theorem setLastPulse_slots (s : State) : (setLastPulse s).slots = s.slots := rfl
@[simp] theorem setLastPulse_count (s : State) : (setLastPulse s).count = s.count := rfl
@[simp] theorem setLastPulse_index (s : State) : (setLastPulse s).index = s.index := rfl
@[simp] theorem setLastPulse_nextBitmask (s : State) : (setLastPulse s).nextBitmask = s.nextBitmask := rfl
@[simp] theorem setLastPulse_initialBitmask (s : State) : (setLastPulse s).initialBitmask = s.initialBitmask := rfl
@[simp] theorem setLastPulse_newCycle (s : State) : (setLastPulse s).newCycle = s.newCycle := rfl
@[simp] theorem setLastPulse_lastPulse (s : State) : (setLastPulse s).lastPulse = true := rfl
@[simp] theorem setLastPulse_tcnt (s : State) : (setLastPulse s).tcnt = s.tcnt := rfl
@[simp] theorem setLastPulse_ocrb (s : State) : (setLastPulse s).ocrb = s.ocrb := rfl
@[simp] theorem setLastPulse_aPending (s : State) : (setLastPulse s).aPending = s.aPending := rfl
@[simp] theorem setLastPulse_bPending (s : State) : (setLastPulse s).bPending = s.bPending := rfl
@[simp] theorem setLastPulse_port (s : State) : (setLastPulse s).port = s.port := rfl
@[simp] theorem setLastPulse_rx (s : State) : (setLastPulse s).rx = s.rx := rfl
@[simp] theorem setLastPulse_tx (s : State) : (setLastPulse s).tx = s.tx := rfl
@[simp] theorem setLastPulse_seq (s : State) : (setLastPulse s).seq = s.seq := rfl
@[simp] theorem setLastPulse_fg (s : State) : (setLastPulse s).fg = s.fg := rfl
@[simp] theorem setLastPulse_faults (s : State) : (setLastPulse s).faults = s.faults := rfl
@[simp] theorem setLastPulse_script (s : State) : (setLastPulse s).script = s.script := rfl
@[simp] theorem setLastPulse_draws (s : State) : (setLastPulse s).draws = s.draws := rfl

/-! ### clearLastPulse -/

@[simp] theorem clearLastPulse_ch (s : State) : (clearLastPulse s).ch = s.ch := rfl
@[simp] theorem clearLastPulse_slots (s : State) : (clearLastPulse s).slots = s.slots := rfl
@[simp] theorem clearLastPulse_count (s : State) : (clearLastPulse s).count = s.count := rfl
@[simp] theorem clearLastPulse_index (s : State) : (clearLastPulse s).index = s.index := rfl
@[simp] theorem clearLastPulse_nextBitmask (s : State) : (clearLastPulse s).nextBitmask = s.nextBitmask := rfl
@[simp] theorem clearLastPulse_initialBitmask (s : State) : (clearLastPulse s).initialBitmask = s.initialBitmask := rfl
@[simp] theorem clearLastPulse_newCycle (s : State) : (clearLastPulse s).newCycle = s.newCycle := rfl
@[simp] theorem clearLastPulse_lastPulse (s : State) : (clearLastPulse s).lastPulse = false := rfl
@[simp] theorem clearLastPulse_tcnt (s : State) : (clearLastPulse s).tcnt = s.tcnt := rfl
@[simp] theorem clearLastPulse_ocrb (s : State) : (clearLastPulse s).ocrb = s.ocrb := rfl
@[simp] theorem clearLastPulse_aPending (s : State) : (clearLastPulse s).aPending = s.aPending := rfl
@[simp] theorem clearLastPulse_bPending (s : State) : (clearLastPulse s).bPending = s.bPending := rfl
@[simp] theorem clearLastPulse_port (s : State) : (clearLastPulse s).port = s.port := rfl
@[simp] theorem clearLastPulse_rx (s : State) : (clearLastPulse s).rx = s.rx := rfl
@[simp] theorem clearLastPulse_tx (s : State) : (clearLastPulse s).tx = s.tx := rfl
@[simp] theorem clearLastPulse_seq (s : State) : (clearLastPulse s).seq = s.seq := rfl
@[simp] theorem clearLastPulse_fg (s : State) : (clearLastPulse s).fg = s.fg := rfl
@[simp] theorem clearLastPulse_faults (s : State) : (clearLastPulse s).faults = s.faults := rfl
@[simp] theorem clearLastPulse_script (s : State) : (clearLastPulse s).script = s.script := rfl
@[simp] theorem clearLastPulse_draws (s : State) : (clearLastPulse s).draws = s.draws := rfl

/-! ### latchA -/

@[simp] theorem latchA_ch (s : State) : (latchA s).ch = s.ch := rfl
@[simp] theorem latchA_slots (s : State) : (latchA s).slots = s.slots := rfl
@[simp] theorem latchA_count (s : State) : (latchA s).count = s.count := rfl
@[simp] theorem latchA_index (s : State) : (latchA s).index = s.index := rfl
@[simp] theorem latchA_nextBitmask (s : State) : (latchA s).nextBitmask = s.nextBitmask := rfl
@[simp] theorem latchA_initialBitmask (s : State) : (latchA s).initialBitmask = s.initialBitmask := rfl
@[simp] theorem latchA_newCycle (s : State) : (latchA s).newCycle = s.newCycle := rfl
@[simp] theorem latchA_lastPulse (s : State) : (latchA s).lastPulse = s.lastPulse := rfl
@[simp] theorem latchA_tcnt (s : State) : (latchA s).tcnt = s.tcnt := rfl
@[simp] theorem latchA_ocrb (s : State) : (latchA s).ocrb = s.ocrb := rfl
@[simp] theorem latchA_aPending (s : State) : (latchA s).aPending = true := rfl
@[simp] theorem latchA_bPending (s : State) : (latchA s).bPending = s.bPending := rfl
@[simp] theorem latchA_port (s : State) : (latchA s).port = s.port := rfl
@[simp] theorem latchA_rx (s : State) : (latchA s).rx = s.rx := rfl
@[simp] theorem latchA_tx (s : State) : (latchA s).tx = s.tx := rfl
@[simp] theorem latchA_seq (s : State) : (latchA s).seq = s.seq := rfl
@[simp] theorem latchA_fg (s : State) : (latchA s).fg = s.fg := rfl
@[simp] theorem latchA_faults (s : State) : (latchA s).faults = s.faults := rfl
@[simp] theorem latchA_script (s : State) : (latchA s).script = s.script := rfl
@[simp] theorem latchA_draws (s : State) : (latchA s).draws = s.draws := rfl

/-! ### latchB -/

@[simp] theorem latchB_ch (s : State) : (latchB s).ch = s.ch := rfl
@[simp] theorem latchB_slots (s : State) : (latchB s).slots = s.slots := rfl
@[simp] theorem latchB_count (s : State) : (latchB s).count = s.count := rfl
@[simp] theorem latchB_index (s : State) : (latchB s).index = s.index := rfl
@[simp] theorem latchB_nextBitmask (s : State) : (latchB s).nextBitmask = s.nextBitmask := rfl
@[simp] theorem latchB_initialBitmask (s : State) : (latchB s).initialBitmask = s.initialBitmask := rfl
@[simp] theorem latchB_newCycle (s : State) : (latchB s).newCycle = s.newCycle := rfl
@[simp] theorem latchB_lastPulse (s : State) : (latchB s).lastPulse = s.lastPulse := rfl
@[simp] theorem latchB_tcnt (s : State) : (latchB s).tcnt = s.tcnt := rfl
@[simp] theorem latchB_ocrb (s : State) : (latchB s).ocrb = s.ocrb := rfl
@[simp] theorem latchB_aPending (s : State) : (latchB s).aPending = s.aPending := rfl
@[simp] theorem latchB_bPending (s : State) : (latchB s).bPending = true := rfl
@[simp] theorem latchB_port (s : State) : (latchB s).port = s.port := rfl
@[simp] theorem latchB_rx (s : State) : (latchB s).rx = s.rx := rfl
@[simp] theorem latchB_tx (s : State) : (latchB s).tx = s.tx := rfl
@[simp] theorem latchB_seq (s : State) : (latchB s).seq = s.seq := rfl
@[simp] theorem latchB_fg (s : State) : (latchB s).fg = s.fg := rfl
@[simp] theorem latchB_faults (s : State) : (latchB s).faults = s.faults := rfl
@[simp] theorem latchB_script (s : State) : (latchB s).script = s.script := rfl
@[simp] theorem latchB_draws (s : State) : (latchB s).draws = s.draws := rfl

/-! ### clearA -/

@[simp] theorem clearA_ch (s : State) : (clearA s).ch = s.ch := rfl
@[simp] theorem clearA_slots (s : State) : (clearA s).slots = s.slots := rfl
@[simp] theorem clearA_count (s : State) : (clearA s).count = s.count := rfl
@[simp] theorem clearA_index (s : State) : (clearA s).index = s.index := rfl
@[simp] theorem clearA_nextBitmask (s : State) : (clearA s).nextBitmask = s.nextBitmask := rfl
@[simp] theorem clearA_initialBitmask (s : State) : (clearA s).initialBitmask = s.initialBitmask := rfl
@[simp] theorem clearA_newCycle (s : State) : (clearA s).newCycle = s.newCycle := rfl
@[simp] theorem clearA_lastPulse (s : State) : (clearA s).lastPulse = s.lastPulse := rfl
@[simp] theorem clearA_tcnt (s : State) : (clearA s).tcnt = s.tcnt := rfl
@[simp] theorem clearA_ocrb (s : State) : (clearA s).ocrb = s.ocrb := rfl
@[simp] theorem clearA_aPending (s : State) : (clearA s).aPending = false := rfl
@[simp] theorem clearA_bPending (s : State) : (clearA s).bPending = s.bPending := rfl
@[simp] theorem clearA_port (s : State) : (clearA s).port = s.port := rfl
@[simp] theorem clearA_rx (s : State) : (clearA s).rx = s.rx := rfl
@[simp] theorem clearA_tx (s : State) : (clearA s).tx = s.tx := rfl
@[simp] theorem clearA_seq (s : State) : (clearA s).seq = s.seq := rfl
@[simp] theorem clearA_fg (s : State) : (clearA s).fg = s.fg := rfl
@[simp] theorem clearA_faults (s : State) : (clearA s).faults = s.faults := rfl
@[simp] theorem clearA_script (s : State) : (clearA s).script = s.script := rfl
@[simp] theorem clearA_draws (s : State) : (clearA s).draws = s.draws := rfl

/-! ### clearB -/

@[simp] theorem clearB_ch (s : State) : (clearB s).ch = s.ch := rfl
@[simp] theorem clearB_slots (s : State) : (clearB s).slots = s.slots := rfl
@[simp] theorem clearB_count (s : State) : (clearB s).count = s.count := rfl
@[simp] theorem clearB_index (s : State) : (clearB s).index = s.index := rfl
@[simp] theorem clearB_nextBitmask (s : State) : (clearB s).nextBitmask = s.nextBitmask := rfl
@[simp] theorem clearB_initialBitmask (s : State) : (clearB s).initialBitmask = s.initialBitmask := rfl
@[simp] theorem clearB_newCycle (s : State) : (clearB s).newCycle = s.newCycle := rfl
@[simp] theorem clearB_lastPulse (s : State) : (clearB s).lastPulse = s.lastPulse := rfl
@[simp] theorem clearB_tcnt (s : State) : (clearB s).tcnt = s.tcnt := rfl
@[simp] theorem clearB_ocrb (s : State) : (clearB s).ocrb = s.ocrb := rfl
@[simp] theorem clearB_aPending (s : State) : (clearB s).aPending = s.aPending := rfl
@[simp] theorem clearB_bPending (s : State) : (clearB s).bPending = false := rfl
@[simp] theorem clearB_port (s : State) : (clearB s).port = s.port := rfl
@[simp] theorem clearB_rx (s : State) : (clearB s).rx = s.rx := rfl
@[simp] theorem clearB_tx (s : State) : (clearB s).tx = s.tx := rfl
@[simp] theorem clearB_seq (s : State) : (clearB s).seq = s.seq := rfl
@[simp] theorem clearB_fg (s : State) : (clearB s).fg = s.fg := rfl
@[simp] theorem clearB_faults (s : State) : (clearB s).faults = s.faults := rfl
@[simp] theorem clearB_script (s : State) : (clearB s).script = s.script := rfl
@[simp] theorem clearB_draws (s : State) : (clearB s).draws = s.draws := rfl

/-! ### raiseFaultIf -/

@[simp] theorem raiseFaultIf_ch (b : Bool) (f : ModelFault) (s : State) : (raiseFaultIf b f s).ch = s.ch := rfl
@[simp] theorem raiseFaultIf_slots (b : Bool) (f : ModelFault) (s : State) : (raiseFaultIf b f s).slots = s.slots := rfl
@[simp] theorem raiseFaultIf_count (b : Bool) (f : ModelFault) (s : State) : (raiseFaultIf b f s).count = s.count := rfl
@[simp] theorem raiseFaultIf_index (b : Bool) (f : ModelFault) (s : State) : (raiseFaultIf b f s).index = s.index := rfl
@[simp] theorem raiseFaultIf_nextBitmask (b : Bool) (f : ModelFault) (s : State) : (raiseFaultIf b f s).nextBitmask = s.nextBitmask := rfl
@[simp] theorem raiseFaultIf_initialBitmask (b : Bool) (f : ModelFault) (s : State) : (raiseFaultIf b f s).initialBitmask = s.initialBitmask := rfl
@[simp] theorem raiseFaultIf_newCycle (b : Bool) (f : ModelFault) (s : State) : (raiseFaultIf b f s).newCycle = s.newCycle := rfl
@[simp] theorem raiseFaultIf_lastPulse (b : Bool) (f : ModelFault) (s : State) : (raiseFaultIf b f s).lastPulse = s.lastPulse := rfl
@[simp] theorem raiseFaultIf_tcnt (b : Bool) (f : ModelFault) (s : State) : (raiseFaultIf b f s).tcnt = s.tcnt := rfl
@[simp] theorem raiseFaultIf_ocrb (b : Bool) (f : ModelFault) (s : State) : (raiseFaultIf b f s).ocrb = s.ocrb := rfl
@[simp] theorem raiseFaultIf_aPending (b : Bool) (f : ModelFault) (s : State) : (raiseFaultIf b f s).aPending = s.aPending := rfl
@[simp] theorem raiseFaultIf_bPending (b : Bool) (f : ModelFault) (s : State) : (raiseFaultIf b f s).bPending = s.bPending := rfl
@[simp] theorem raiseFaultIf_port (b : Bool) (f : ModelFault) (s : State) : (raiseFaultIf b f s).port = s.port := rfl
@[simp] theorem raiseFaultIf_rx (b : Bool) (f : ModelFault) (s : State) : (raiseFaultIf b f s).rx = s.rx := rfl
@[simp] theorem raiseFaultIf_tx (b : Bool) (f : ModelFault) (s : State) : (raiseFaultIf b f s).tx = s.tx := rfl
@[simp] theorem raiseFaultIf_seq (b : Bool) (f : ModelFault) (s : State) : (raiseFaultIf b f s).seq = s.seq := rfl
@[simp] theorem raiseFaultIf_fg (b : Bool) (f : ModelFault) (s : State) : (raiseFaultIf b f s).fg = s.fg := rfl
@[simp] theorem raiseFaultIf_faults (b : Bool) (f : ModelFault) (s : State) : (raiseFaultIf b f s).faults = if b then insertFault f s.faults else s.faults := rfl
@[simp] theorem raiseFaultIf_script (b : Bool) (f : ModelFault) (s : State) : (raiseFaultIf b f s).script = s.script := rfl
@[simp] theorem raiseFaultIf_draws (b : Bool) (f : ModelFault) (s : State) : (raiseFaultIf b f s).draws = s.draws := rfl

/-! ### emit -/

@[simp] theorem emit_ch (bs : List Byte) (s : State) : (emit bs s).ch = s.ch := rfl
@[simp] theorem emit_slots (bs : List Byte) (s : State) : (emit bs s).slots = s.slots := rfl
@[simp] theorem emit_count (bs : List Byte) (s : State) : (emit bs s).count = s.count := rfl
@[simp] theorem emit_index (bs : List Byte) (s : State) : (emit bs s).index = s.index := rfl
@[simp] theorem emit_nextBitmask (bs : List Byte) (s : State) : (emit bs s).nextBitmask = s.nextBitmask := rfl
@[simp] theorem emit_initialBitmask (bs : List Byte) (s : State) : (emit bs s).initialBitmask = s.initialBitmask := rfl
@[simp] theorem emit_newCycle (bs : List Byte) (s : State) : (emit bs s).newCycle = s.newCycle := rfl
@[simp] theorem emit_lastPulse (bs : List Byte) (s : State) : (emit bs s).lastPulse = s.lastPulse := rfl
@[simp] theorem emit_tcnt (bs : List Byte) (s : State) : (emit bs s).tcnt = s.tcnt := rfl
@[simp] theorem emit_ocrb (bs : List Byte) (s : State) : (emit bs s).ocrb = s.ocrb := rfl
@[simp] theorem emit_aPending (bs : List Byte) (s : State) : (emit bs s).aPending = s.aPending := rfl
@[simp] theorem emit_bPending (bs : List Byte) (s : State) : (emit bs s).bPending = s.bPending := rfl
@[simp] theorem emit_port (bs : List Byte) (s : State) : (emit bs s).port = s.port := rfl
@[simp] theorem emit_rx (bs : List Byte) (s : State) : (emit bs s).rx = s.rx := rfl
@[simp] theorem emit_tx (bs : List Byte) (s : State) : (emit bs s).tx = s.tx ++ bs := rfl
@[simp] theorem emit_seq (bs : List Byte) (s : State) : (emit bs s).seq = s.seq := rfl
@[simp] theorem emit_fg (bs : List Byte) (s : State) : (emit bs s).fg = s.fg := rfl
@[simp] theorem emit_faults (bs : List Byte) (s : State) : (emit bs s).faults = s.faults := rfl
@[simp] theorem emit_script (bs : List Byte) (s : State) : (emit bs s).script = s.script := rfl
@[simp] theorem emit_draws (bs : List Byte) (s : State) : (emit bs s).draws = s.draws := rfl

/-! ### leaveRx -/

@[simp] theorem leaveRx_ch (rest : List Byte) (s : State) : (leaveRx rest s).ch = s.ch := rfl
@[simp] theorem leaveRx_slots (rest : List Byte) (s : State) : (leaveRx rest s).slots = s.slots := rfl
@[simp] theorem leaveRx_count (rest : List Byte) (s : State) : (leaveRx rest s).count = s.count := rfl
@[simp] theorem leaveRx_index (rest : List Byte) (s : State) : (leaveRx rest s).index = s.index := rfl
@[simp] theorem leaveRx_nextBitmask (rest : List Byte) (s : State) : (leaveRx rest s).nextBitmask = s.nextBitmask := rfl
@[simp] theorem leaveRx_initialBitmask (rest : List Byte) (s : State) : (leaveRx rest s).initialBitmask = s.initialBitmask := rfl
@[simp] theorem leaveRx_newCycle (rest : List Byte) (s : State) : (leaveRx rest s).newCycle = s.newCycle := rfl
@[simp] theorem leaveRx_lastPulse (rest : List Byte) (s : State) : (leaveRx rest s).lastPulse = s.lastPulse := rfl
@[simp] theorem leaveRx_tcnt (rest : List Byte) (s : State) : (leaveRx rest s).tcnt = s.tcnt := rfl
@[simp] theorem leaveRx_ocrb (rest : List Byte) (s : State) : (leaveRx rest s).ocrb = s.ocrb := rfl
@[simp] theorem leaveRx_aPending (rest : List Byte) (s : State) : (leaveRx rest s).aPending = s.aPending := rfl
@[simp] theorem leaveRx_bPending (rest : List Byte) (s : State) : (leaveRx rest s).bPending = s.bPending := rfl
@[simp] theorem leaveRx_port (rest : List Byte) (s : State) : (leaveRx rest s).port = s.port := rfl
@[simp] theorem leaveRx_rx (rest : List Byte) (s : State) : (leaveRx rest s).rx = rest := rfl
@[simp] theorem leaveRx_tx (rest : List Byte) (s : State) : (leaveRx rest s).tx = s.tx := rfl
@[simp] theorem leaveRx_seq (rest : List Byte) (s : State) : (leaveRx rest s).seq = s.seq := rfl
@[simp] theorem leaveRx_fg (rest : List Byte) (s : State) : (leaveRx rest s).fg = s.fg := rfl
@[simp] theorem leaveRx_faults (rest : List Byte) (s : State) : (leaveRx rest s).faults = s.faults := rfl
@[simp] theorem leaveRx_script (rest : List Byte) (s : State) : (leaveRx rest s).script = s.script := rfl
@[simp] theorem leaveRx_draws (rest : List Byte) (s : State) : (leaveRx rest s).draws = s.draws := rfl

/-! ### writePort -/

@[simp] theorem writePort_ch (v : Byte) (s : State) : (writePort v s).ch = s.ch := rfl
@[simp] theorem writePort_slots (v : Byte) (s : State) : (writePort v s).slots = s.slots := rfl
@[simp] theorem writePort_count (v : Byte) (s : State) : (writePort v s).count = s.count := rfl
@[simp] theorem writePort_index (v : Byte) (s : State) : (writePort v s).index = s.index := rfl
@[simp] theorem writePort_nextBitmask (v : Byte) (s : State) : (writePort v s).nextBitmask = s.nextBitmask := rfl
@[simp] theorem writePort_initialBitmask (v : Byte) (s : State) : (writePort v s).initialBitmask = s.initialBitmask := rfl
@[simp] theorem writePort_newCycle (v : Byte) (s : State) : (writePort v s).newCycle = s.newCycle := rfl
@[simp] theorem writePort_lastPulse (v : Byte) (s : State) : (writePort v s).lastPulse = s.lastPulse := rfl
@[simp] theorem writePort_tcnt (v : Byte) (s : State) : (writePort v s).tcnt = s.tcnt := rfl
@[simp] theorem writePort_ocrb (v : Byte) (s : State) : (writePort v s).ocrb = s.ocrb := rfl
@[simp] theorem writePort_aPending (v : Byte) (s : State) : (writePort v s).aPending = s.aPending := rfl
@[simp] theorem writePort_bPending (v : Byte) (s : State) : (writePort v s).bPending = s.bPending := rfl
@[simp] theorem writePort_port (v : Byte) (s : State) : (writePort v s).port = v := rfl
@[simp] theorem writePort_rx (v : Byte) (s : State) : (writePort v s).rx = s.rx := rfl
@[simp] theorem writePort_tx (v : Byte) (s : State) : (writePort v s).tx = s.tx := rfl
@[simp] theorem writePort_seq (v : Byte) (s : State) : (writePort v s).seq = s.seq := rfl
@[simp] theorem writePort_fg (v : Byte) (s : State) : (writePort v s).fg = s.fg := rfl
@[simp] theorem writePort_faults (v : Byte) (s : State) : (writePort v s).faults = s.faults := rfl
@[simp] theorem writePort_script (v : Byte) (s : State) : (writePort v s).script = s.script := rfl
@[simp] theorem writePort_draws (v : Byte) (s : State) : (writePort v s).draws = s.draws := rfl

/-! ### orPort -/

@[simp] theorem orPort_ch (m : Byte) (s : State) : (orPort m s).ch = s.ch := rfl
@[simp] theorem orPort_slots (m : Byte) (s : State) : (orPort m s).slots = s.slots := rfl
@[simp] theorem orPort_count (m : Byte) (s : State) : (orPort m s).count = s.count := rfl
@[simp] theorem orPort_index (m : Byte) (s : State) : (orPort m s).index = s.index := rfl
@[simp] theorem orPort_nextBitmask (m : Byte) (s : State) : (orPort m s).nextBitmask = s.nextBitmask := rfl
@[simp] theorem orPort_initialBitmask (m : Byte) (s : State) : (orPort m s).initialBitmask = s.initialBitmask := rfl
@[simp] theorem orPort_newCycle (m : Byte) (s : State) : (orPort m s).newCycle = s.newCycle := rfl
@[simp] theorem orPort_lastPulse (m : Byte) (s : State) : (orPort m s).lastPulse = s.lastPulse := rfl
@[simp] theorem orPort_tcnt (m : Byte) (s : State) : (orPort m s).tcnt = s.tcnt := rfl
@[simp] theorem orPort_ocrb (m : Byte) (s : State) : (orPort m s).ocrb = s.ocrb := rfl
@[simp] theorem orPort_aPending (m : Byte) (s : State) : (orPort m s).aPending = s.aPending := rfl
@[simp] theorem orPort_bPending (m : Byte) (s : State) : (orPort m s).bPending = s.bPending := rfl
@[simp] theorem orPort_port (m : Byte) (s : State) : (orPort m s).port = s.port ||| m := rfl
@[simp] theorem orPort_rx (m : Byte) (s : State) : (orPort m s).rx = s.rx := rfl
@[simp] theorem orPort_tx (m : Byte) (s : State) : (orPort m s).tx = s.tx := rfl
@[simp] theorem orPort_seq (m : Byte) (s : State) : (orPort m s).seq = s.seq := rfl
@[simp] theorem orPort_fg (m : Byte) (s : State) : (orPort m s).fg = s.fg := rfl
@[simp] theorem orPort_faults (m : Byte) (s : State) : (orPort m s).faults = s.faults := rfl
@[simp] theorem orPort_script (m : Byte) (s : State) : (orPort m s).script = s.script := rfl
@[simp] theorem orPort_draws (m : Byte) (s : State) : (orPort m s).draws = s.draws := rfl

/-! ### writeOcrb -/

@[simp] theorem writeOcrb_ch (v : Word) (s : State) : (writeOcrb v s).ch = s.ch := rfl
@[simp] theorem writeOcrb_slots (v : Word) (s : State) : (writeOcrb v s).slots = s.slots := rfl
@[simp] theorem writeOcrb_count (v : Word) (s : State) : (writeOcrb v s).count = s.count := rfl
@[simp] theorem writeOcrb_index (v : Word) (s : State) : (writeOcrb v s).index = s.index := rfl
@[simp] theorem writeOcrb_nextBitmask (v : Word) (s : State) : (writeOcrb v s).nextBitmask = s.nextBitmask := rfl
@[simp] theorem writeOcrb_initialBitmask (v : Word) (s : State) : (writeOcrb v s).initialBitmask = s.initialBitmask := rfl
@[simp] theorem writeOcrb_newCycle (v : Word) (s : State) : (writeOcrb v s).newCycle = s.newCycle := rfl
@[simp] theorem writeOcrb_lastPulse (v : Word) (s : State) : (writeOcrb v s).lastPulse = s.lastPulse := rfl
@[simp] theorem writeOcrb_tcnt (v : Word) (s : State) : (writeOcrb v s).tcnt = s.tcnt := rfl
@[simp] theorem writeOcrb_ocrb (v : Word) (s : State) : (writeOcrb v s).ocrb = v := rfl
@[simp] theorem writeOcrb_aPending (v : Word) (s : State) : (writeOcrb v s).aPending = s.aPending := rfl
@[simp] theorem writeOcrb_bPending (v : Word) (s : State) : (writeOcrb v s).bPending = s.bPending := rfl
@[simp] theorem writeOcrb_port (v : Word) (s : State) : (writeOcrb v s).port = s.port := rfl
@[simp] theorem writeOcrb_rx (v : Word) (s : State) : (writeOcrb v s).rx = s.rx := rfl
@[simp] theorem writeOcrb_tx (v : Word) (s : State) : (writeOcrb v s).tx = s.tx := rfl
@[simp] theorem writeOcrb_seq (v : Word) (s : State) : (writeOcrb v s).seq = s.seq := rfl
@[simp] theorem writeOcrb_fg (v : Word) (s : State) : (writeOcrb v s).fg = s.fg := rfl
@[simp] theorem writeOcrb_faults (v : Word) (s : State) : (writeOcrb v s).faults = s.faults := rfl
@[simp] theorem writeOcrb_script (v : Word) (s : State) : (writeOcrb v s).script = s.script := rfl
@[simp] theorem writeOcrb_draws (v : Word) (s : State) : (writeOcrb v s).draws = s.draws := rfl

/-! ### stageMask -/

@[simp] theorem stageMask_ch (m : Byte) (s : State) : (stageMask m s).ch = s.ch := rfl
@[simp] theorem stageMask_slots (m : Byte) (s : State) : (stageMask m s).slots = s.slots := rfl
@[simp] theorem stageMask_count (m : Byte) (s : State) : (stageMask m s).count = s.count := rfl
@[simp] theorem stageMask_index (m : Byte) (s : State) : (stageMask m s).index = s.index := rfl
@[simp] theorem stageMask_nextBitmask (m : Byte) (s : State) : (stageMask m s).nextBitmask = m := rfl
@[simp] theorem stageMask_initialBitmask (m : Byte) (s : State) : (stageMask m s).initialBitmask = s.initialBitmask := rfl
@[simp] theorem stageMask_newCycle (m : Byte) (s : State) : (stageMask m s).newCycle = s.newCycle := rfl
@[simp] theorem stageMask_lastPulse (m : Byte) (s : State) : (stageMask m s).lastPulse = s.lastPulse := rfl
@[simp] theorem stageMask_tcnt (m : Byte) (s : State) : (stageMask m s).tcnt = s.tcnt := rfl
@[simp] theorem stageMask_ocrb (m : Byte) (s : State) : (stageMask m s).ocrb = s.ocrb := rfl
@[simp] theorem stageMask_aPending (m : Byte) (s : State) : (stageMask m s).aPending = s.aPending := rfl
@[simp] theorem stageMask_bPending (m : Byte) (s : State) : (stageMask m s).bPending = s.bPending := rfl
@[simp] theorem stageMask_port (m : Byte) (s : State) : (stageMask m s).port = s.port := rfl
@[simp] theorem stageMask_rx (m : Byte) (s : State) : (stageMask m s).rx = s.rx := rfl
@[simp] theorem stageMask_tx (m : Byte) (s : State) : (stageMask m s).tx = s.tx := rfl
@[simp] theorem stageMask_seq (m : Byte) (s : State) : (stageMask m s).seq = s.seq := rfl
@[simp] theorem stageMask_fg (m : Byte) (s : State) : (stageMask m s).fg = s.fg := rfl
@[simp] theorem stageMask_faults (m : Byte) (s : State) : (stageMask m s).faults = s.faults := rfl
@[simp] theorem stageMask_script (m : Byte) (s : State) : (stageMask m s).script = s.script := rfl
@[simp] theorem stageMask_draws (m : Byte) (s : State) : (stageMask m s).draws = s.draws := rfl

/-! ### setIndex -/

@[simp] theorem setIndex_ch (v : Byte) (s : State) : (setIndex v s).ch = s.ch := rfl
@[simp] theorem setIndex_slots (v : Byte) (s : State) : (setIndex v s).slots = s.slots := rfl
@[simp] theorem setIndex_count (v : Byte) (s : State) : (setIndex v s).count = s.count := rfl
@[simp] theorem setIndex_index (v : Byte) (s : State) : (setIndex v s).index = v := rfl
@[simp] theorem setIndex_nextBitmask (v : Byte) (s : State) : (setIndex v s).nextBitmask = s.nextBitmask := rfl
@[simp] theorem setIndex_initialBitmask (v : Byte) (s : State) : (setIndex v s).initialBitmask = s.initialBitmask := rfl
@[simp] theorem setIndex_newCycle (v : Byte) (s : State) : (setIndex v s).newCycle = s.newCycle := rfl
@[simp] theorem setIndex_lastPulse (v : Byte) (s : State) : (setIndex v s).lastPulse = s.lastPulse := rfl
@[simp] theorem setIndex_tcnt (v : Byte) (s : State) : (setIndex v s).tcnt = s.tcnt := rfl
@[simp] theorem setIndex_ocrb (v : Byte) (s : State) : (setIndex v s).ocrb = s.ocrb := rfl
@[simp] theorem setIndex_aPending (v : Byte) (s : State) : (setIndex v s).aPending = s.aPending := rfl
@[simp] theorem setIndex_bPending (v : Byte) (s : State) : (setIndex v s).bPending = s.bPending := rfl
@[simp] theorem setIndex_port (v : Byte) (s : State) : (setIndex v s).port = s.port := rfl
@[simp] theorem setIndex_rx (v : Byte) (s : State) : (setIndex v s).rx = s.rx := rfl
@[simp] theorem setIndex_tx (v : Byte) (s : State) : (setIndex v s).tx = s.tx := rfl
@[simp] theorem setIndex_seq (v : Byte) (s : State) : (setIndex v s).seq = s.seq := rfl
@[simp] theorem setIndex_fg (v : Byte) (s : State) : (setIndex v s).fg = s.fg := rfl
@[simp] theorem setIndex_faults (v : Byte) (s : State) : (setIndex v s).faults = s.faults := rfl
@[simp] theorem setIndex_script (v : Byte) (s : State) : (setIndex v s).script = s.script := rfl
@[simp] theorem setIndex_draws (v : Byte) (s : State) : (setIndex v s).draws = s.draws := rfl

/-! ### goSeq -/

@[simp] theorem goSeq_ch (q : Seq) (s : State) : (goSeq q s).ch = s.ch := rfl
@[simp] theorem goSeq_slots (q : Seq) (s : State) : (goSeq q s).slots = s.slots := rfl
@[simp] theorem goSeq_count (q : Seq) (s : State) : (goSeq q s).count = s.count := rfl
@[simp] theorem goSeq_index (q : Seq) (s : State) : (goSeq q s).index = s.index := rfl
@[simp] theorem goSeq_nextBitmask (q : Seq) (s : State) : (goSeq q s).nextBitmask = s.nextBitmask := rfl
@[simp] theorem goSeq_initialBitmask (q : Seq) (s : State) : (goSeq q s).initialBitmask = s.initialBitmask := rfl
@[simp] theorem goSeq_newCycle (q : Seq) (s : State) : (goSeq q s).newCycle = s.newCycle := rfl
@[simp] theorem goSeq_lastPulse (q : Seq) (s : State) : (goSeq q s).lastPulse = s.lastPulse := rfl
@[simp] theorem goSeq_tcnt (q : Seq) (s : State) : (goSeq q s).tcnt = s.tcnt := rfl
@[simp] theorem goSeq_ocrb (q : Seq) (s : State) : (goSeq q s).ocrb = s.ocrb := rfl
@[simp] theorem goSeq_aPending (q : Seq) (s : State) : (goSeq q s).aPending = s.aPending := rfl
@[simp] theorem goSeq_bPending (q : Seq) (s : State) : (goSeq q s).bPending = s.bPending := rfl
@[simp] theorem goSeq_port (q : Seq) (s : State) : (goSeq q s).port = s.port := rfl
@[simp] theorem goSeq_rx (q : Seq) (s : State) : (goSeq q s).rx = s.rx := rfl
@[simp] theorem goSeq_tx (q : Seq) (s : State) : (goSeq q s).tx = s.tx := rfl
@[simp] theorem goSeq_seq (q : Seq) (s : State) : (goSeq q s).seq = q := rfl
@[simp] theorem goSeq_fg (q : Seq) (s : State) : (goSeq q s).fg = s.fg := rfl
@[simp] theorem goSeq_faults (q : Seq) (s : State) : (goSeq q s).faults = s.faults := rfl
@[simp] theorem goSeq_script (q : Seq) (s : State) : (goSeq q s).script = s.script := rfl
@[simp] theorem goSeq_draws (q : Seq) (s : State) : (goSeq q s).draws = s.draws := rfl

/-! ### goFg -/

@[simp] theorem goFg_ch (p : Fg) (s : State) : (goFg p s).ch = s.ch := rfl
@[simp] theorem goFg_slots (p : Fg) (s : State) : (goFg p s).slots = s.slots := rfl
@[simp] theorem goFg_count (p : Fg) (s : State) : (goFg p s).count = s.count := rfl
@[simp] theorem goFg_index (p : Fg) (s : State) : (goFg p s).index = s.index := rfl
@[simp] theorem goFg_nextBitmask (p : Fg) (s : State) : (goFg p s).nextBitmask = s.nextBitmask := rfl
@[simp] theorem goFg_initialBitmask (p : Fg) (s : State) : (goFg p s).initialBitmask = s.initialBitmask := rfl
@[simp] theorem goFg_newCycle (p : Fg) (s : State) : (goFg p s).newCycle = s.newCycle := rfl
@[simp] theorem goFg_lastPulse (p : Fg) (s : State) : (goFg p s).lastPulse = s.lastPulse := rfl
@[simp] theorem goFg_tcnt (p : Fg) (s : State) : (goFg p s).tcnt = s.tcnt := rfl
@[simp] theorem goFg_ocrb (p : Fg) (s : State) : (goFg p s).ocrb = s.ocrb := rfl
@[simp] theorem goFg_aPending (p : Fg) (s : State) : (goFg p s).aPending = s.aPending := rfl
@[simp] theorem goFg_bPending (p : Fg) (s : State) : (goFg p s).bPending = s.bPending := rfl
@[simp] theorem goFg_port (p : Fg) (s : State) : (goFg p s).port = s.port := rfl
@[simp] theorem goFg_rx (p : Fg) (s : State) : (goFg p s).rx = s.rx := rfl
@[simp] theorem goFg_tx (p : Fg) (s : State) : (goFg p s).tx = s.tx := rfl
@[simp] theorem goFg_seq (p : Fg) (s : State) : (goFg p s).seq = s.seq := rfl
@[simp] theorem goFg_fg (p : Fg) (s : State) : (goFg p s).fg = p := rfl
@[simp] theorem goFg_faults (p : Fg) (s : State) : (goFg p s).faults = s.faults := rfl
@[simp] theorem goFg_script (p : Fg) (s : State) : (goFg p s).script = s.script := rfl
@[simp] theorem goFg_draws (p : Fg) (s : State) : (goFg p s).draws = s.draws := rfl

/-! ### setTarget -/

@[simp] theorem setTarget_ch (k : Chan) (v : Byte) (s : State) : (setTarget k v s).ch = s.ch.set { s.ch.get k with target := v } k := rfl
@[simp] theorem setTarget_slots (k : Chan) (v : Byte) (s : State) : (setTarget k v s).slots = s.slots := rfl
@[simp] theorem setTarget_count (k : Chan) (v : Byte) (s : State) : (setTarget k v s).count = s.count := rfl
@[simp] theorem setTarget_index (k : Chan) (v : Byte) (s : State) : (setTarget k v s).index = s.index := rfl
@[simp] theorem setTarget_nextBitmask (k : Chan) (v : Byte) (s : State) : (setTarget k v s).nextBitmask = s.nextBitmask := rfl
@[simp] theorem setTarget_initialBitmask (k : Chan) (v : Byte) (s : State) : (setTarget k v s).initialBitmask = s.initialBitmask := rfl
@[simp] theorem setTarget_newCycle (k : Chan) (v : Byte) (s : State) : (setTarget k v s).newCycle = s.newCycle := rfl
@[simp] theorem setTarget_lastPulse (k : Chan) (v : Byte) (s : State) : (setTarget k v s).lastPulse = s.lastPulse := rfl
@[simp] theorem setTarget_tcnt (k : Chan) (v : Byte) (s : State) : (setTarget k v s).tcnt = s.tcnt := rfl
@[simp] theorem setTarget_ocrb (k : Chan) (v : Byte) (s : State) : (setTarget k v s).ocrb = s.ocrb := rfl
@[simp] theorem setTarget_aPending (k : Chan) (v : Byte) (s : State) : (setTarget k v s).aPending = s.aPending := rfl
@[simp] theorem setTarget_bPending (k : Chan) (v : Byte) (s : State) : (setTarget k v s).bPending = s.bPending := rfl
@[simp] theorem setTarget_port (k : Chan) (v : Byte) (s : State) : (setTarget k v s).port = s.port := rfl
@[simp] theorem setTarget_rx (k : Chan) (v : Byte) (s : State) : (setTarget k v s).rx = s.rx := rfl
@[simp] theorem setTarget_tx (k : Chan) (v : Byte) (s : State) : (setTarget k v s).tx = s.tx := rfl
@[simp] theorem setTarget_seq (k : Chan) (v : Byte) (s : State) : (setTarget k v s).seq = s.seq := rfl
@[simp] theorem setTarget_fg (k : Chan) (v : Byte) (s : State) : (setTarget k v s).fg = s.fg := rfl
@[simp] theorem setTarget_faults (k : Chan) (v : Byte) (s : State) : (setTarget k v s).faults = s.faults := rfl
@[simp] theorem setTarget_script (k : Chan) (v : Byte) (s : State) : (setTarget k v s).script = s.script := rfl
@[simp] theorem setTarget_draws (k : Chan) (v : Byte) (s : State) : (setTarget k v s).draws = s.draws := rfl

/-! ### mapTargets -/

@[simp] theorem mapTargets_ch (f : Channel → Byte) (s : State) : (mapTargets f s).ch = s.ch.map fun x => { x with target := f x } := rfl
@[simp] theorem mapTargets_slots (f : Channel → Byte) (s : State) : (mapTargets f s).slots = s.slots := rfl
@[simp] theorem mapTargets_count (f : Channel → Byte) (s : State) : (mapTargets f s).count = s.count := rfl
@[simp] theorem mapTargets_index (f : Channel → Byte) (s : State) : (mapTargets f s).index = s.index := rfl
@[simp] theorem mapTargets_nextBitmask (f : Channel → Byte) (s : State) : (mapTargets f s).nextBitmask = s.nextBitmask := rfl
@[simp] theorem mapTargets_initialBitmask (f : Channel → Byte) (s : State) : (mapTargets f s).initialBitmask = s.initialBitmask := rfl
@[simp] theorem mapTargets_newCycle (f : Channel → Byte) (s : State) : (mapTargets f s).newCycle = s.newCycle := rfl
@[simp] theorem mapTargets_lastPulse (f : Channel → Byte) (s : State) : (mapTargets f s).lastPulse = s.lastPulse := rfl
@[simp] theorem mapTargets_tcnt (f : Channel → Byte) (s : State) : (mapTargets f s).tcnt = s.tcnt := rfl
@[simp] theorem mapTargets_ocrb (f : Channel → Byte) (s : State) : (mapTargets f s).ocrb = s.ocrb := rfl
@[simp] theorem mapTargets_aPending (f : Channel → Byte) (s : State) : (mapTargets f s).aPending = s.aPending := rfl
@[simp] theorem mapTargets_bPending (f : Channel → Byte) (s : State) : (mapTargets f s).bPending = s.bPending := rfl
@[simp] theorem mapTargets_port (f : Channel → Byte) (s : State) : (mapTargets f s).port = s.port := rfl
@[simp] theorem mapTargets_rx (f : Channel → Byte) (s : State) : (mapTargets f s).rx = s.rx := rfl
@[simp] theorem mapTargets_tx (f : Channel → Byte) (s : State) : (mapTargets f s).tx = s.tx := rfl
@[simp] theorem mapTargets_seq (f : Channel → Byte) (s : State) : (mapTargets f s).seq = s.seq := rfl
@[simp] theorem mapTargets_fg (f : Channel → Byte) (s : State) : (mapTargets f s).fg = s.fg := rfl
@[simp] theorem mapTargets_faults (f : Channel → Byte) (s : State) : (mapTargets f s).faults = s.faults := rfl
@[simp] theorem mapTargets_script (f : Channel → Byte) (s : State) : (mapTargets f s).script = s.script := rfl
@[simp] theorem mapTargets_draws (f : Channel → Byte) (s : State) : (mapTargets f s).draws = s.draws := rfl

/-! ### mapSpeeds -/

@[simp] theorem mapSpeeds_ch (f : Word → Word) (s : State) : (mapSpeeds f s).ch = s.ch.map fun x => { x with speed := f x.speed } := rfl
@[simp] theorem mapSpeeds_slots (f : Word → Word) (s : State) : (mapSpeeds f s).slots = s.slots := rfl
@[simp] theorem mapSpeeds_count (f : Word → Word) (s : State) : (mapSpeeds f s).count = s.count := rfl
@[simp] theorem mapSpeeds_index (f : Word → Word) (s : State) : (mapSpeeds f s).index = s.index := rfl
@[simp] theorem mapSpeeds_nextBitmask (f : Word → Word) (s : State) : (mapSpeeds f s).nextBitmask = s.nextBitmask := rfl
@[simp] theorem mapSpeeds_initialBitmask (f : Word → Word) (s : State) : (mapSpeeds f s).initialBitmask = s.initialBitmask := rfl
@[simp] theorem mapSpeeds_newCycle (f : Word → Word) (s : State) : (mapSpeeds f s).newCycle = s.newCycle := rfl
@[simp] theorem mapSpeeds_lastPulse (f : Word → Word) (s : State) : (mapSpeeds f s).lastPulse = s.lastPulse := rfl
@[simp] theorem mapSpeeds_tcnt (f : Word → Word) (s : State) : (mapSpeeds f s).tcnt = s.tcnt := rfl
@[simp] theorem mapSpeeds_ocrb (f : Word → Word) (s : State) : (mapSpeeds f s).ocrb = s.ocrb := rfl
@[simp] theorem mapSpeeds_aPending (f : Word → Word) (s : State) : (mapSpeeds f s).aPending = s.aPending := rfl
@[simp] theorem mapSpeeds_bPending (f : Word → Word) (s : State) : (mapSpeeds f s).bPending = s.bPending := rfl
@[simp] theorem mapSpeeds_port (f : Word → Word) (s : State) : (mapSpeeds f s).port = s.port := rfl
@[simp] theorem mapSpeeds_rx (f : Word → Word) (s : State) : (mapSpeeds f s).rx = s.rx := rfl
@[simp] theorem mapSpeeds_tx (f : Word → Word) (s : State) : (mapSpeeds f s).tx = s.tx := rfl
@[simp] theorem mapSpeeds_seq (f : Word → Word) (s : State) : (mapSpeeds f s).seq = s.seq := rfl
@[simp] theorem mapSpeeds_fg (f : Word → Word) (s : State) : (mapSpeeds f s).fg = s.fg := rfl
@[simp] theorem mapSpeeds_faults (f : Word → Word) (s : State) : (mapSpeeds f s).faults = s.faults := rfl
@[simp] theorem mapSpeeds_script (f : Word → Word) (s : State) : (mapSpeeds f s).script = s.script := rfl
@[simp] theorem mapSpeeds_draws (f : Word → Word) (s : State) : (mapSpeeds f s).draws = s.draws := rfl

/-! ### hostSend -/

@[simp] theorem hostSend_ch (b : Byte) (s : State) : (hostSend b s).ch = s.ch := rfl
@[simp] theorem hostSend_slots (b : Byte) (s : State) : (hostSend b s).slots = s.slots := rfl
@[simp] theorem hostSend_count (b : Byte) (s : State) : (hostSend b s).count = s.count := rfl
@[simp] theorem hostSend_index (b : Byte) (s : State) : (hostSend b s).index = s.index := rfl
@[simp] theorem hostSend_nextBitmask (b : Byte) (s : State) : (hostSend b s).nextBitmask = s.nextBitmask := rfl
@[simp] theorem hostSend_initialBitmask (b : Byte) (s : State) : (hostSend b s).initialBitmask = s.initialBitmask := rfl
@[simp] theorem hostSend_newCycle (b : Byte) (s : State) : (hostSend b s).newCycle = s.newCycle := rfl
@[simp] theorem hostSend_lastPulse (b : Byte) (s : State) : (hostSend b s).lastPulse = s.lastPulse := rfl
@[simp] theorem hostSend_tcnt (b : Byte) (s : State) : (hostSend b s).tcnt = s.tcnt := rfl
@[simp] theorem hostSend_ocrb (b : Byte) (s : State) : (hostSend b s).ocrb = s.ocrb := rfl
@[simp] theorem hostSend_aPending (b : Byte) (s : State) : (hostSend b s).aPending = s.aPending := rfl
@[simp] theorem hostSend_bPending (b : Byte) (s : State) : (hostSend b s).bPending = s.bPending := rfl
@[simp] theorem hostSend_port (b : Byte) (s : State) : (hostSend b s).port = s.port := rfl
@[simp] theorem hostSend_rx (b : Byte) (s : State) : (hostSend b s).rx = s.rx ++ [b] := rfl
@[simp] theorem hostSend_tx (b : Byte) (s : State) : (hostSend b s).tx = s.tx := rfl
@[simp] theorem hostSend_seq (b : Byte) (s : State) : (hostSend b s).seq = s.seq := rfl
@[simp] theorem hostSend_fg (b : Byte) (s : State) : (hostSend b s).fg = s.fg := rfl
@[simp] theorem hostSend_faults (b : Byte) (s : State) : (hostSend b s).faults = s.faults := rfl
@[simp] theorem hostSend_script (b : Byte) (s : State) : (hostSend b s).script = s.script := rfl
@[simp] theorem hostSend_draws (b : Byte) (s : State) : (hostSend b s).draws = s.draws := rfl

/-! ### hostTake -/

@[simp] theorem hostTake_ch (s : State) : (hostTake s).ch = s.ch := rfl
@[simp] theorem hostTake_slots (s : State) : (hostTake s).slots = s.slots := rfl
@[simp] theorem hostTake_count (s : State) : (hostTake s).count = s.count := rfl
@[simp] theorem hostTake_index (s : State) : (hostTake s).index = s.index := rfl
@[simp] theorem hostTake_nextBitmask (s : State) : (hostTake s).nextBitmask = s.nextBitmask := rfl
@[simp] theorem hostTake_initialBitmask (s : State) : (hostTake s).initialBitmask = s.initialBitmask := rfl
@[simp] theorem hostTake_newCycle (s : State) : (hostTake s).newCycle = s.newCycle := rfl
@[simp] theorem hostTake_lastPulse (s : State) : (hostTake s).lastPulse = s.lastPulse := rfl
@[simp] theorem hostTake_tcnt (s : State) : (hostTake s).tcnt = s.tcnt := rfl
@[simp] theorem hostTake_ocrb (s : State) : (hostTake s).ocrb = s.ocrb := rfl
@[simp] theorem hostTake_aPending (s : State) : (hostTake s).aPending = s.aPending := rfl
@[simp] theorem hostTake_bPending (s : State) : (hostTake s).bPending = s.bPending := rfl
@[simp] theorem hostTake_port (s : State) : (hostTake s).port = s.port := rfl
@[simp] theorem hostTake_rx (s : State) : (hostTake s).rx = s.rx := rfl
@[simp] theorem hostTake_tx (s : State) : (hostTake s).tx = s.tx.tail := rfl
@[simp] theorem hostTake_seq (s : State) : (hostTake s).seq = s.seq := rfl
@[simp] theorem hostTake_fg (s : State) : (hostTake s).fg = s.fg := rfl
@[simp] theorem hostTake_faults (s : State) : (hostTake s).faults = s.faults := rfl
@[simp] theorem hostTake_script (s : State) : (hostTake s).script = s.script := rfl
@[simp] theorem hostTake_draws (s : State) : (hostTake s).draws = s.draws := rfl

/-! ### The set of faults -/

@[simp] theorem mem_insertFault (f g : ModelFault) (fs : List ModelFault) : g ∈ insertFault f fs ↔ g = f ∨ g ∈ fs := by
  induction fs with
  | nil => simp [insertFault]
  | cons a as ih =>
    by_cases h : a = f
    · subst h
      simp [insertFault]
    · rw [insertFault, if_neg h, List.mem_cons, List.mem_cons, ih, or_left_comm]

theorem insertFault_nodup {f : ModelFault} {fs : List ModelFault} (h : fs.Nodup) : (insertFault f fs).Nodup := by
  induction fs with
  | nil => simp [insertFault]
  | cons a as ih =>
    by_cases e : a = f
    · subst e
      simpa [insertFault] using h
    · rw [List.nodup_cons] at h
      rw [insertFault, if_neg e, List.nodup_cons, mem_insertFault]
      exact ⟨fun hm => hm.elim e h.1, ih h.2⟩

/-! ### Channels and the schedule array -/

@[simp] theorem get_set_self (chs : Channels) (x : Channel) (k : Chan) : (chs.set x k).get k = x := by
  cases k <;> rfl

theorem get_set_other (chs : Channels) (x : Channel) {k j : Chan} (h : j ≠ k) : (chs.set x k).get j = chs.get j := by
  cases k <;> cases j <;> first | rfl | exact absurd rfl h

@[simp] theorem get_map (chs : Channels) (f : Channel → Channel) (k : Chan) : (chs.map f).get k = f (chs.get k) := by
  cases k <;> rfl

theorem Channels.ext_get {a b : Channels} (h : ∀ k, a.get k = b.get k) : a = b := by
  have h0 := h .c0
  have h1 := h .c1
  have h2 := h .c2
  cases a
  cases b
  simp only [Channels.get] at h0 h1 h2
  simp [h0, h1, h2]

/-- The four entries exist, and no other. -/
theorem get?_eq_none_iff (sl : Slots) (i : Nat) : sl.get? i = none ↔ 4 ≤ i := by
  match i with
  | 0 | 1 | 2 | 3 => simp [Slots.get?]
  | n + 4 => simp [Slots.get?]

theorem get?_isSome (sl : Slots) {i : Nat} (h : i < 4) : ∃ x, sl.get? i = some x := by
  cases hx : sl.get? i with
  | some x => exact ⟨x, rfl⟩
  | none => exact absurd ((get?_eq_none_iff sl i).mp hx) (by omega)

/-- Writing a list over the array: its entries in front, the old ones behind. -/
theorem get?_overlay (sl : Slots) (out : List Slot) {i : Nat} (h : i < 4) :
    (sl.overlay out).get? i = if i < out.length then out[i]? else sl.get? i := by
  have pick : ∀ (j : Nat) (d : Slot), some (out[j]?.getD d) = if j < out.length then out[j]? else some d := by
    intro j d
    by_cases hj : j < out.length
    · simp [hj]
    · simp [hj]
  match i, h with
  | 0, _ => exact pick 0 sl.s0
  | 1, _ => exact pick 1 sl.s1
  | 2, _ => exact pick 2 sl.s2
  | 3, _ => exact pick 3 sl.s3

end Sys2Proof.Machine
end

