-- ==== Sys2Proof/Laws/Commands.lean ====
section
/-! SUPPORT. Everything a command can do, said once (43_commands.md R203). -/

namespace Sys2Proof.Laws

open Sys2Proof.Machine

/-- The state a command leaves: a target or speed rewrite, or reply bytes. -/
theorem exec_cases (i : Instr) (s : State) :
    (∃ k v, exec i s = .next (setTarget k v s)) ∨ (∃ f, exec i s = .next (mapTargets f s)) ∨
      (∃ f, exec i s = .next (mapSpeeds f s)) ∨ (∃ bs, exec i s = .next (emit bs s)) ∨ exec i s = .next s := by
  cases i with
  | tgtAllZero => exact .inr (.inl ⟨_, rfl⟩)
  | tgt0Dec => exact .inl ⟨.c0, _, rfl⟩
  | tgt1Dec => exact .inl ⟨.c1, _, rfl⟩
  | tgt2Dec => exact .inl ⟨.c2, _, rfl⟩
  | tgt0Inc => exact .inl ⟨.c0, _, rfl⟩
  | tgt1Inc => exact .inl ⟨.c1, _, rfl⟩
  | tgt2Inc => exact .inl ⟨.c2, _, rfl⟩
  | tgtHold => exact .inr (.inl ⟨_, rfl⟩)
  | speedHalve => exact .inr (.inr (.inl ⟨_, rfl⟩))
  | speedDouble => exact .inr (.inr (.inl ⟨_, rfl⟩))
  | reportSpeed => exact .inr (.inr (.inr (.inl ⟨_, rfl⟩)))
  | reportBright => exact .inr (.inr (.inr (.inl ⟨_, rfl⟩)))
  | ignore op => exact .inr (.inr (.inr (.inr rfl)))

/-- A command's next state differs only in the channels and in bytes added to `TX`. -/
theorem exec_next {i : Instr} {s t : State} (h : exec i s = .next t) :
    ∃ chs bs, t = { s with ch := chs, tx := s.tx ++ bs } := by
  obtain ⟨k, v, e⟩ | ⟨f, e⟩ | ⟨f, e⟩ | ⟨bs, e⟩ | e := exec_cases i s <;> rw [e] at h <;> cases h
  · exact ⟨(setTarget k v s).ch, [], by simp [setTarget]⟩
  · exact ⟨(mapTargets f s).ch, [], by simp [mapTargets]⟩
  · exact ⟨(mapSpeeds f s).ch, [], by simp [mapSpeeds]⟩
  · exact ⟨s.ch, bs, rfl⟩
  · exact ⟨s.ch, [], by simp⟩

end Sys2Proof.Laws
end

