-- ==== Sys2Proof/Laws/Config.lean ====
section
/-! SUPPORT. The machine's configuration meets 00_scope.md R9, whatever the gamma table is. -/

namespace Sys2Proof.Laws

open Sys2Proof.Machine

theorem gammaFixture_toNat {i : Nat} (h : i < 254) :
    (gammaFixture (BitVec.ofNat 8 i)).toNat = if i < 180 then 300 * (i + 1) else 300 * (i - 179) := by
  have hi : (BitVec.ofNat 8 i).toNat = i := by
    rw [BitVec.toNat_ofNat]
    omega
  unfold gammaFixture
  rw [hi, if_pos h]
  split
  · rw [BitVec.toNat_ofNat]
    omega
  · rw [BitVec.toNat_ofNat]
    omega

/-- The spec's test fixture meets R9 (b) to (d) (95_test_vectors.md says so). -/
theorem gammaFixture_admitted : GammaAdmitted gammaFixture 181 64000 := by
  refine ⟨?_, ?_, ?_⟩
  · intro i hi hm
    have hm' : i + 2 < 181 := hm
    rw [BitVec.lt_def, gammaFixture_toNat (by omega), gammaFixture_toNat (by omega)]
    split <;> split <;> omega
  · intro i hi hm
    have hm' : 181 ≤ i + 1 := hm
    rw [BitVec.lt_def, gammaFixture_toNat (by omega), gammaFixture_toNat (by omega)]
    split <;> split <;> omega
  · intro i hi
    rw [BitVec.lt_def, BitVec.le_def, gammaFixture_toNat hi]
    have one : (1#16).toNat = 1 := rfl
    have top : (64000 : Word).toNat = 64000 := rfl
    split <;> omega

/-- Any admitted free table, or else the fixture: an admitted table in every case. -/
theorem gammaTable_admitted : GammaAdmitted (Config.gammaTable 181 64000) 181 64000 := by
  unfold Config.gammaTable
  split
  case isTrue h => exact h
  case isFalse => exact gammaFixture_admitted

theorem chip_gamma : chip.gamma = Config.gammaTable 181 64000 := rfl
@[simp] theorem chip_aTop : chip.aTop = 64000 := rfl
@[simp] theorem chip_midTop : chip.midTop = 65000 := rfl
@[simp] theorem chip_midMask : chip.midMask = 0xFF := rfl
@[simp] theorem chip_bOff : chip.bOff = 65000 := rfl
@[simp] theorem chip_guard : chip.guard = 500 := rfl
@[simp] theorem chip_midLevel : chip.midLevel = 181 := rfl

/-- 00_scope.md R9 for the values of R8. -/
theorem chip_admitted : chip.Admitted := by
  have table : GammaAdmitted chip.gamma chip.midLevel chip.aTop := by
    rw [chip_gamma, chip_midLevel, chip_aTop]
    exact gammaTable_admitted
  refine ⟨by decide, table, ?_⟩
  rw [Config.TopsAdmitted, chip_aTop, chip_midTop, chip_bOff, chip_guard, BitVec.lt_def]
  decide

/-- A bit set in one channel's mask is in no other's (R9 (a)). -/
theorem masks_disjoint {c : Config} (h : c.MasksAdmitted) {j k : Chan} (hjk : j ≠ k) :
    c.chMask j &&& c.chMask k = 0 := by
  obtain ⟨-, h01, h02, h12⟩ := h
  cases j <;> cases k <;> first
    | exact absurd rfl hjk
    | assumption
    | (rw [BitVec.and_comm]; assumption)

/-- A one-bit mask is not 0 (R9 (a)). -/
theorem mask_ne_zero {c : Config} (h : c.MasksAdmitted) (k : Chan) : c.chMask k ≠ 0 := by
  have one : ∀ b : Byte, OneBit b → b ≠ 0 := by
    rintro b ⟨i, hi, rfl⟩
    interval_cases i <;> decide
  obtain ⟨⟨h0, h1, h2⟩, -⟩ := h
  cases k
  · exact one _ h0
  · exact one _ h1
  · exact one _ h2

/-- The deadline of a level in `[1, 254]` lies in `[1, A_TOP)` (R9 (d)). -/
theorem gammaLookup_range {c : Config} (h : c.Admitted) {b : Byte} (lo : 0 < b) (hi : b < 255) :
    1#16 ≤ gammaLookup c b ∧ gammaLookup c b < c.aTop := by
  have h0 : 0 < b.toNat := by simpa [BitVec.lt_def] using lo
  have h1 : b.toNat < 255 := by simpa [BitVec.lt_def] using hi
  have e : BitVec.ofNat 8 (b.toNat - 1) = b - 1 := by
    apply BitVec.eq_of_toNat_eq
    simp [BitVec.toNat_sub]
    omega
  have := h.2.1.2.2 (b.toNat - 1) (by omega)
  rw [e] at this
  exact this

end Sys2Proof.Laws
end

