-- ==== Sys2Proof/Laws/Decode.lean ====
section
/-! SUPPORT. The decoder row by row, and that the opcode map is unambiguous (30_encoding.md R83). -/

namespace Sys2Proof.Laws

@[simp] theorem decode_nil : decode [] = .error .noByte := rfl

@[simp] theorem decode_cons (op : Byte) (rest : List Byte) : decode (op :: rest) = .ok (decodeByte op, rest) := rfl

@[simp] theorem encode_eq (i : Instr) : encode i = [encodeByte i] := rfl

/-- "The twelve values are distinct, so decoding is unambiguous" (R83). -/
theorem opcodeMap_distinct : opcodeMap.Pairwise fun a b => a.byte ≠ b.byte := by decide

/-- The rows are the bytes that `Instr.wf` keeps from `ignore`. -/
theorem opcodeMap_bytes : opcodeMap.map (fun row => row.byte) = commandBytes := rfl

/-- A byte of no row decodes as `IGNORE`. -/
theorem decodeByte_other {op : Byte} (h : op ∉ commandBytes) : decodeByte op = .ignore op := by
  have none : opcodeMap.find? (fun row => row.byte == op) = none := by
    rw [List.find?_eq_none]
    intro row hrow heq
    apply h
    rw [← opcodeMap_bytes, List.mem_map]
    exact ⟨row, hrow, by simpa using heq⟩
  simp [decodeByte, none]

/-- A byte of a row decodes as the row says. -/
theorem decodeByte_row : ∀ row ∈ opcodeMap, decodeByte row.byte = row.instr := by decide

/-- What a byte can decode as: the instruction of its row, or `IGNORE`. -/
theorem decodeByte_cases (op : Byte) :
    (∃ row ∈ opcodeMap, row.byte = op ∧ decodeByte op = row.instr) ∨
      (op ∉ commandBytes ∧ decodeByte op = .ignore op) := by
  by_cases h : op ∈ commandBytes
  · rw [← opcodeMap_bytes, List.mem_map] at h
    obtain ⟨row, hrow, rfl⟩ := h
    exact .inl ⟨row, hrow, rfl, decodeByte_row row hrow⟩
  · exact .inr ⟨h, decodeByte_other h⟩

end Sys2Proof.Laws
end

