-- ==== Sys2Proof/Laws/Fade.lean ====
section
/-! SUPPORT. The five ways a fade step of one channel ends (41_fade.md R131). -/

namespace Sys2Proof.Laws

open Sys2Proof.Machine

/-- The branch a fade step takes, and the channel it leaves. -/
theorem fadeChannel_cases (d : Byte) (x : Channel) :
    (x.brightness < x.target ∧
      ((high (join x.brightness x.remainder + x.speed) < x.brightness ∨
          x.target < high (join x.brightness x.remainder + x.speed)) ∧ fadeChannel d x = clampFade x d ∨
        (x.brightness ≤ high (join x.brightness x.remainder + x.speed) ∧
          high (join x.brightness x.remainder + x.speed) ≤ x.target) ∧
          fadeChannel d x = acceptFade x (join x.brightness x.remainder + x.speed))) ∨
    (x.target < x.brightness ∧
      ((x.brightness < high (join x.brightness x.remainder - x.speed) ∨
          high (join x.brightness x.remainder - x.speed) < x.target) ∧ fadeChannel d x = clampFade x d ∨
        (x.target ≤ high (join x.brightness x.remainder - x.speed) ∧
          high (join x.brightness x.remainder - x.speed) ≤ x.brightness) ∧
          fadeChannel d x = acceptFade x (join x.brightness x.remainder - x.speed))) ∨
    (x.brightness = x.target ∧ fadeChannel d x = x) := by
  unfold fadeChannel
  split
  case isTrue up =>
    refine .inl ⟨up, ?_⟩
    split
    case isTrue clamp => exact .inl ⟨clamp, rfl⟩
    case isFalse keep =>
      rw [not_or, BitVec.not_lt, BitVec.not_lt] at keep
      exact .inr ⟨keep, rfl⟩
  case isFalse notUp =>
    split
    case isTrue down =>
      refine .inr (.inl ⟨down, ?_⟩)
      split
      case isTrue clamp => exact .inl ⟨clamp, rfl⟩
      case isFalse keep =>
        rw [not_or, BitVec.not_lt, BitVec.not_lt] at keep
        exact .inr ⟨⟨keep.2, keep.1⟩, rfl⟩
    case isFalse notDown =>
      rw [BitVec.not_lt] at notUp notDown
      exact .inr (.inr ⟨BitVec.le_antisymm notDown notUp, rfl⟩)

/-- A fade step writes neither the target nor the speed (R130). -/
@[simp] theorem fadeChannel_target (d : Byte) (x : Channel) : (fadeChannel d x).target = x.target := by
  obtain ⟨-, ⟨-, e⟩ | ⟨-, e⟩⟩ | ⟨-, ⟨-, e⟩ | ⟨-, e⟩⟩ | ⟨-, e⟩ := fadeChannel_cases d x <;> rw [e] <;> rfl

@[simp] theorem fadeChannel_speed (d : Byte) (x : Channel) : (fadeChannel d x).speed = x.speed := by
  obtain ⟨-, ⟨-, e⟩ | ⟨-, e⟩⟩ | ⟨-, ⟨-, e⟩ | ⟨-, e⟩⟩ | ⟨-, e⟩ := fadeChannel_cases d x <;> rw [e] <;> rfl

end Sys2Proof.Laws
end

