-- ==== Sys2Proof/Laws/Foreground.lean ====
section
/-! SUPPORT. Everything a foreground step can lead to (44_foreground.md R230-R233), and the move every step makes. -/

namespace Sys2Proof.Laws

open Sys2Proof.Machine

theorem foregroundEnabled_iff (s : State) :
    foregroundEnabled s = true ↔ s.seq = .idle ∧ s.aPending = false ∧ s.bPending = false := by
  simp [foregroundEnabled, eventPending]

/-- Everything a foreground step from `s` can lead to. -/
inductive ForegroundDid (c : Config) (s : State) : State → Prop where
  /-- Not enabled: it holds (R257). -/
  | held (e : foregroundEnabled s = false) : ForegroundDid c s s
  /-- At `CheckNewCycle` with the flag up: a fade (R231). -/
  | faded (e : foregroundEnabled s = true) (p : s.fg = .checkNewCycle) (f : s.newCycle = true) :
    ForegroundDid c s (goFg .checkLastPulse (fade (clearNewCycle s)))
  | noCycle (e : foregroundEnabled s = true) (p : s.fg = .checkNewCycle) (f : s.newCycle = false) :
    ForegroundDid c s (goFg .checkLastPulse s)
  /-- At `CheckLastPulse` with the flag up: a rebuild and its byte (R232). -/
  | rebuilt (e : foregroundEnabled s = true) (p : s.fg = .checkLastPulse) (f : s.lastPulse = true) :
    ForegroundDid c s (goFg .dispatch (rebuildAndReport c (clearLastPulse s)))
  | noPulse (e : foregroundEnabled s = true) (p : s.fg = .checkLastPulse) (f : s.lastPulse = false) :
    ForegroundDid c s (goFg .dispatch s)
  /-- At `Dispatch` with a byte: its command (R233). -/
  | ran (op : Byte) (rest : List Byte) (chs : Channels) (bs : List Byte) (t : State)
    (e : foregroundEnabled s = true) (p : s.fg = .dispatch) (x : s.rx = op :: rest)
    (m : exec (decodeByte op) (goFg .checkNewCycle (leaveRx rest s)) = .next t)
    (w : t = { s with rx := rest, fg := .checkNewCycle, ch := chs, tx := s.tx ++ bs }) : ForegroundDid c s t
  | noByte (e : foregroundEnabled s = true) (p : s.fg = .dispatch) (x : s.rx = []) :
    ForegroundDid c s (goFg .checkNewCycle s)

/-- Everything a foreground step can answer with a next state. -/
theorem foregroundStep_next {c : Config} {s t : State} (h : foregroundStep c s = .next t) : ForegroundDid c s t := by
  unfold foregroundStep at h
  split at h
  case isFalse he =>
    cases h
    exact .held (by simpa using he)
  case isTrue he =>
    cases hp : s.fg with
    | checkNewCycle =>
      simp only [foregroundLoop, hp, checkNewCycle] at h
      cases hf : s.newCycle <;> simp only [hf, if_true, Bool.false_eq_true, if_false] at h <;> cases h
      · exact .noCycle he hp hf
      · exact .faded he hp hf
    | checkLastPulse =>
      simp only [foregroundLoop, hp, checkLastPulse] at h
      cases hf : s.lastPulse <;> simp only [hf, if_true, Bool.false_eq_true, if_false] at h <;> cases h
      · exact .noPulse he hp hf
      · exact .rebuilt he hp hf
    | dispatch =>
      simp only [foregroundLoop, hp, dispatch] at h
      cases hx : s.rx with
      | nil =>
        simp only [hx, decode_nil] at h
        cases h
        exact .noByte he hp hx
      | cons op rest =>
        simp only [hx, decode_cons] at h
        obtain ⟨chs, bs, e⟩ := exec_next h
        exact .ran op rest chs bs t he hp hx h e

/-- Using up the choice of a move changes only the model's own fields. -/
theorem chooseMove_eq (s : State) :
    ∃ ms n, chooseMove s = { s with script := ms, draws := n } := by
  unfold chooseMove
  split
  · exact ⟨_, s.draws, rfl⟩
  · exact ⟨s.script, _, rfl⟩

/-- A step is the chosen move. -/
theorem step_eq_moveStep (s : State) :
    ∃ ms n, step s = moveStep chip (nextMove s) { s with script := ms, draws := n } := by
  obtain ⟨ms, n, e⟩ := chooseMove_eq s
  exact ⟨ms, n, by rw [← e]; rfl⟩

end Sys2Proof.Laws
end

