-- ==== Sys2Proof/Laws/PerInstr.lean ====
section
/-! SUPPORT. One lemma per constructor of `Instr`: a well-formed command's byte decodes as that command. -/

namespace Sys2Proof.Laws.ByteRoundTrip

/-- The byte of a well-formed command decodes as the command (30_encoding.md R83). -/
def Statement (i : Instr) : Prop :=
  i.wf = true → decodeByte (encodeByte i) = i

theorem tgtAllZero : Statement .tgtAllZero := fun _ => rfl
theorem tgt0Dec : Statement .tgt0Dec := fun _ => rfl
theorem tgt1Dec : Statement .tgt1Dec := fun _ => rfl
theorem tgt2Dec : Statement .tgt2Dec := fun _ => rfl
theorem tgt0Inc : Statement .tgt0Inc := fun _ => rfl
theorem tgt1Inc : Statement .tgt1Inc := fun _ => rfl
theorem tgt2Inc : Statement .tgt2Inc := fun _ => rfl
theorem tgtHold : Statement .tgtHold := fun _ => rfl
theorem speedHalve : Statement .speedHalve := fun _ => rfl
theorem speedDouble : Statement .speedDouble := fun _ => rfl
theorem reportSpeed : Statement .reportSpeed := fun _ => rfl
theorem reportBright : Statement .reportBright := fun _ => rfl

theorem ignore (op : Byte) : Statement (.ignore op) := by
  intro h
  have other : op ∉ commandBytes := by simpa [Instr.wf] using h
  exact decodeByte_other other

end Sys2Proof.Laws.ByteRoundTrip
end

