-- ==== Sys2Proof/Laws/Scheduler.lean ====
section
/-! SUPPORT. What a rebuild writes: the channels in order, how many slots the walk emits, that each is legal and that the
marker is one of them (40_gamma_scheduler.md R110-R118). -/

namespace Sys2Proof.Laws

open Sys2Proof.Machine

theorem eligible_iff (b : Byte) : eligible b = true ↔ 0 < b ∧ b < 255 := by
  simp [eligible]

theorem mem_insertChannel (chs : Channels) (k j : Chan) (l : List Chan) :
    j ∈ insertChannel chs k l ↔ j = k ∨ j ∈ l := by
  induction l with
  | nil => simp [insertChannel]
  | cons a as ih =>
    unfold insertChannel
    split
    · simp
    · simp only [List.mem_cons, ih]
      tauto

theorem length_insertChannel (chs : Channels) (k : Chan) (l : List Chan) :
    (insertChannel chs k l).length = l.length + 1 := by
  induction l with
  | nil => rfl
  | cons a as ih =>
    unfold insertChannel
    split
    · rfl
    · simp [ih]

/-- Inserting keeps the list ascending in brightness (R111). -/
theorem sorted_insertChannel (chs : Channels) (k : Chan) {l : List Chan}
    (h : l.Pairwise fun a b => brightnessOf chs a ≤ brightnessOf chs b) :
    (insertChannel chs k l).Pairwise fun a b => brightnessOf chs a ≤ brightnessOf chs b := by
  induction l with
  | nil => simp [insertChannel]
  | cons a as ih =>
    rw [List.pairwise_cons] at h
    unfold insertChannel
    split
    case isTrue lt =>
      rw [List.pairwise_cons, List.pairwise_cons]
      refine ⟨?_, h⟩
      intro b hb
      rw [List.mem_cons] at hb
      obtain rfl | hb := hb
      · exact BitVec.le_of_lt lt
      · exact BitVec.le_trans (BitVec.le_of_lt lt) (h.1 b hb)
    case isFalse ge =>
      rw [List.pairwise_cons]
      refine ⟨?_, ih h.2⟩
      intro b hb
      rw [mem_insertChannel] at hb
      obtain rfl | hb := hb
      · exact BitVec.not_lt.mp ge
      · exact h.1 b hb

/-- The sorted channels are the three channels. -/
theorem mem_sortedChannels (chs : Channels) (k : Chan) : k ∈ sortedChannels chs := by
  simp only [sortedChannels, channelList, List.foldl, mem_insertChannel]
  cases k <;> simp

theorem length_sortedChannels (chs : Channels) : (sortedChannels chs).length = 3 := by
  simp [sortedChannels, channelList, length_insertChannel]

/-- "a permutation of {0,1,2} sorted by ascending `brightness`" (R111). -/
theorem sorted_sortedChannels (chs : Channels) :
    (sortedChannels chs).Pairwise fun a b => brightnessOf chs a ≤ brightnessOf chs b := by
  simp only [sortedChannels, channelList, List.foldl]
  exact sorted_insertChannel _ _ (sorted_insertChannel _ _ (sorted_insertChannel _ _ List.Pairwise.nil))

/-- The marker, or a channel slot with a deadline in `[1, A_TOP)`; no mask is 0. -/
def SlotLegal (c : Config) (sl : Slot) : Prop :=
  sl.mask ≠ 0 ∧ (sl = marker c ∨ (1#16 ≤ sl.top ∧ sl.top < c.aTop))

/-- What the walk keeps over `n` channels. -/
structure WalkLegal (c : Config) (n : Nat) (w : Walk) : Prop where
  legal : ∀ sl ∈ w.emitted, SlotLegal c sl
  /-- The latest slot is a channel slot, so a collapse never overwrites the marker (R114). -/
  latest : ∀ sl rest, w.emitted = sl :: rest → 1#16 ≤ sl.top ∧ sl.top < c.aTop
  hasMarker : c.midLevel ≤ w.last → 0 < w.last → marker c ∈ w.emitted
  bound : w.emitted.length ≤ n + (if c.midLevel ≤ w.last then 1 else 0)

theorem or_ne_zero {a b : Byte} (h : b ≠ 0) : a ||| b ≠ 0 := by
  intro e
  exact h (BitVec.or_eq_zero_iff.mp e).2

theorem lt_of_lt_of_le_bits {n : Nat} {a b c : BitVec n} (h : a < b) (g : b ≤ c) : a < c := by
  rw [BitVec.lt_def] at *
  rw [BitVec.le_def] at g
  omega

/-- One turn of the walk keeps it, with one channel more. -/
theorem walkLegal_visitChannel {c : Config} (hc : c.Admitted) (hm : 0 < c.midLevel) (hmm : c.midMask ≠ 0)
    (chs : Channels) (k : Chan) {n : Nat} {w : Walk} (h : WalkLegal c n w) :
    WalkLegal c (n + 1) (visitChannel c chs w k) := by
  unfold visitChannel
  split
  case isFalse => exact ⟨h.legal, h.latest, h.hasMarker, by have := h.bound; omega⟩
  case isTrue he =>
    rw [eligible_iff] at he
    have r := gammaLookup_range hc he.1 he.2
    have mz := mask_ne_zero hc.1 k
    unfold crossMid
    split
    case isTrue hx =>
      have lt : w.last < brightnessOf chs k := lt_of_lt_of_le_bits hx.1 hx.2
      unfold visitLevel
      rw [if_pos lt]
      refine ⟨?_, ?_, ?_, ?_⟩
      · intro sl hsl
        simp only [List.mem_cons] at hsl
        obtain rfl | rfl | hsl := hsl
        · exact ⟨or_ne_zero mz, .inr r⟩
        · exact ⟨hmm, .inl rfl⟩
        · exact h.legal _ hsl
      · intro sl rest e
        simp only [List.cons.injEq] at e
        rw [← e.1]
        exact r
      · intro _ _
        simp
      · have := h.bound
        rw [if_neg (BitVec.not_le.mpr hx.1)] at this
        rw [if_pos hx.2]
        simp
        omega
    case isFalse hx =>
      unfold visitLevel
      split
      case isTrue lt =>
        have key : c.midLevel ≤ brightnessOf chs k → c.midLevel ≤ w.last := by
          intro h1
          by_contra h2
          exact hx ⟨BitVec.not_le.mp h2, h1⟩
        refine ⟨?_, ?_, ?_, ?_⟩
        · intro sl hsl
          simp only [List.mem_cons] at hsl
          obtain rfl | hsl := hsl
          · exact ⟨or_ne_zero mz, .inr r⟩
          · exact h.legal _ hsl
        · intro sl rest e
          simp only [List.cons.injEq] at e
          rw [← e.1]
          exact r
        · intro h1 h2
          exact List.mem_cons_of_mem _ (h.hasMarker (key h1) (lt_of_lt_of_le_bits hm (key h1)))
        · have := h.bound
          have k2 : c.midLevel ≤ w.last → c.midLevel ≤ brightnessOf chs k :=
            fun h1 => BitVec.le_trans h1 (BitVec.le_of_lt lt)
          by_cases h1 : c.midLevel ≤ brightnessOf chs k
          · rw [if_pos (key h1)] at this
            simp [if_pos h1]
            omega
          · rw [if_neg (fun h3 => h1 (k2 h3))] at this
            simp [if_neg h1]
            omega
      case isFalse =>
        cases hw : w.emitted with
        | nil =>
          refine ⟨by simp [collapseLatest], by simp [collapseLatest], ?_, by simp [collapseLatest]⟩
          intro h1 h2
          have := h.hasMarker h1 h2
          simp [hw] at this
        | cons a as =>
          have ha := h.latest a as hw
          refine ⟨?_, ?_, ?_, ?_⟩
          · intro sl hsl
            simp only [collapseLatest, List.mem_cons] at hsl
            obtain rfl | hsl := hsl
            · exact ⟨or_ne_zero mz, .inr ha⟩
            · exact h.legal _ (hw ▸ List.mem_cons_of_mem _ hsl)
          · intro sl rest e
            simp only [collapseLatest, List.cons.injEq] at e
            rw [← e.1]
            exact ha
          · intro h1 h2
            have := h.hasMarker h1 h2
            rw [hw, List.mem_cons] at this
            obtain e | this := this
            · exfalso
              have t := hc.2.2.1
              rw [← e] at ha
              exact absurd ha.2 (BitVec.not_lt.mpr (BitVec.le_of_lt t))
            · simp [collapseLatest, this]
          · have := h.bound
            rw [hw] at this
            simp [collapseLatest] at *
            omega

/-- A rebuild's slots are legal, at most 4, and the marker is one of them (R115, R116, R118). -/
theorem builtSlots_legal (c : Config) (hc : c.Admitted) (hm : 0 < c.midLevel) (hmm : c.midMask ≠ 0) (chs : Channels) :
    (∀ sl ∈ builtSlots c chs, SlotLegal c sl) ∧ marker c ∈ builtSlots c chs ∧ (builtSlots c chs).length ≤ 4 := by
  have h3 := length_sortedChannels chs
  unfold builtSlots
  match hs : sortedChannels chs, h3 with
  | [a, b, d], _ =>
    have h0 : WalkLegal c 0 ⟨0, 0, []⟩ := ⟨by simp, by simp, by simp, by simp⟩
    have h1 := walkLegal_visitChannel hc hm hmm chs a h0
    have h := walkLegal_visitChannel hc hm hmm chs d (walkLegal_visitChannel hc hm hmm chs b h1)
    simp only [List.foldl]
    generalize visitChannel c chs _ d = w at h
    unfold closeWalk
    split
    case isTrue lt =>
      refine ⟨?_, by simp, ?_⟩
      · intro sl hsl
        simp at hsl
        obtain hsl | rfl := hsl
        · exact h.legal _ hsl
        · exact ⟨hmm, .inl rfl⟩
      · have := h.bound
        rw [if_neg (BitVec.not_le.mpr lt)] at this
        simp
        omega
    case isFalse ge =>
      have ge := BitVec.not_lt.mp ge
      refine ⟨?_, ?_, ?_⟩
      · intro sl hsl
        simp at hsl
        exact h.legal _ hsl
      · simp
        exact h.hasMarker ge (lt_of_lt_of_le_bits hm ge)
      · have := h.bound
        rw [if_pos ge] at this
        simp
        omega

/-- The entries a rebuild writes are the slots it built. -/
theorem get_overlay (sl : Slots) (out : List Slot) (i : Nat) (h : i < out.length) (h4 : out.length ≤ 4) :
    (sl.overlay out).get? i = some out[i] := by
  have : i < 4 := by omega
  interval_cases i <;> simp [Slots.overlay, Slots.get?, h]

end Sys2Proof.Laws
end

