-- ==== Sys2Proof/Laws/Sequencer.lean ====
section
/-! SUPPORT. Everything slot preparation, interrupt entry and a sequencer step can do, said once. -/

namespace Sys2Proof.Laws

open Sys2Proof.Machine

/-- What slot preparation answers: the last-slot branch, a staged slot, or the stop for an entry that does not exist. -/
theorem prepare_cases (c : Config) (s : State) :
    (s.count ≤ s.index ∧ prepare c s = .next { s with index := 0, lastPulse := true, ocrb := c.bOff }) ∨
    (s.index < s.count ∧ ∃ sl, currentSlot s = some sl ∧
      prepare c s = .next { s with ocrb := sl.top, nextBitmask := sl.mask, index := s.index + 1 }) ∨
    (s.index < s.count ∧ currentSlot s = none ∧ prepare c s = .fault .noSuchSlot) := by
  unfold prepare
  by_cases h : s.count ≤ s.index
  · exact .inl ⟨h, if_pos h⟩
  · have lt : s.index < s.count := by
      rw [BitVec.lt_def]
      rw [BitVec.le_def] at h
      omega
    rw [if_neg h]
    cases hs : currentSlot s with
    | some sl => exact .inr (.inl ⟨lt, sl, rfl, rfl⟩)
    | none => exact .inr (.inr ⟨lt, rfl, rfl⟩)

/-- Slot preparation's next state: only `index`, `OCRB`, `next_bitmask` and `last_pulse` can differ. -/
theorem prepare_next {c : Config} {s t : State} (h : prepare c s = .next t) :
    (s.count ≤ s.index ∧ t = { s with index := 0, lastPulse := true, ocrb := c.bOff }) ∨
    (s.index < s.count ∧ ∃ sl, currentSlot s = some sl ∧
      t = { s with ocrb := sl.top, nextBitmask := sl.mask, index := s.index + 1 }) := by
  obtain ⟨hc, e⟩ | ⟨hc, sl, hs, e⟩ | ⟨-, -, e⟩ := prepare_cases c s
  · rw [e] at h
    cases h
    exact .inl ⟨hc, rfl⟩
  · rw [e] at h
    cases h
    exact .inr ⟨hc, sl, hs, rfl⟩
  · rw [e] at h
    cases h

/-- The mask the B handler ORs: none where the marker is staged, else `next_bitmask`. -/
theorem stagedMask_cases (c : Config) (s : State) :
    (s.nextBitmask = c.midMask ∧ c.aTop < s.ocrb ∧ stagedMask c s = 0) ∨
    (¬(s.nextBitmask = c.midMask ∧ c.aTop < s.ocrb) ∧ stagedMask c s = s.nextBitmask) := by
  unfold stagedMask markerStaged
  by_cases h : s.nextBitmask = c.midMask ∧ c.aTop < s.ocrb
  · exact .inl ⟨h.1, h.2, by simp [h]⟩
  · exact .inr ⟨h, by simp [h]⟩

/-- Entry with the A latch set. -/
theorem enter_a {s : State} (h : s.aPending = true) :
    ∃ fs, (∀ f, f ∈ fs ↔ f ∈ s.faults ∨ (s.lastPulse = true ∧ f = .rebuildLate)) ∧ (s.faults.Nodup → fs.Nodup) ∧
      (s.lastPulse = false → fs = s.faults) ∧
      enter s = { s with aPending := false, seq := .aStart1, faults := fs } := by
  unfold enter checkRebuildLate
  rw [if_pos h]
  by_cases hl : s.lastPulse = true
  · refine ⟨insertFault .rebuildLate s.faults, ?_, insertFault_nodup, by simp [hl], ?_⟩
    · intro f
      rw [mem_insertFault]
      tauto
    · simp [hl, goSeq, raiseFaultIf, clearA]
  · exact ⟨s.faults, by simp [hl], fun nd => nd, fun _ => rfl, by simp [hl, goSeq, clearA]⟩

/-- Entry with only the B latch set. -/
theorem enter_b {s : State} (h : s.aPending = false) : enter s = { s with bPending := false, seq := .bRun } := by
  simp [enter, h, goSeq, clearB]

/-- Everything a sequencer step from `s` can lead to. -/
inductive SequencerDid (c : Config) (s : State) : State → Prop where
  /-- Idle with no latch set: it holds. -/
  | held (q : s.seq = .idle) (a : s.aPending = false) (b : s.bPending = false) : SequencerDid c s s
  /-- Entry of the A handler. -/
  | enteredA (q : s.seq = .idle) (a : s.aPending = true) : SequencerDid c s (enter s)
  /-- Entry of the B handler. -/
  | enteredB (q : s.seq = .idle) (a : s.aPending = false) (b : s.bPending = true) :
    SequencerDid c s { s with bPending := false, seq := .bRun }
  /-- `A_Start1`, the cycle start. -/
  | startedCycle (q : s.seq = .aStart1) (z : s.nextBitmask = 0) :
    SequencerDid c s { s with port := s.initialBitmask, newCycle := true, seq := .aSpin }
  /-- `A_Start1`, any other A event. -/
  | sawWrap (q : s.seq = .aStart1) (z : s.nextBitmask ≠ 0) : SequencerDid c s { s with seq := .aPrep }
  /-- `A_Spin`, the spin test true. -/
  | mustWait (sl : Slot) (q : s.seq = .aSpin) (e : currentSlot s = some sl)
    (w : sl.top.toNat < s.tcnt.toNat + c.guard.toNat) : SequencerDid c s { s with seq := .aSpinWait }
  /-- `A_Spin`, the spin test false. -/
  | leftSpin (sl : Slot) (q : s.seq = .aSpin) (e : currentSlot s = some sl)
    (w : s.tcnt.toNat + c.guard.toNat ≤ sl.top.toNat) : SequencerDid c s { s with seq := .aPrep }
  /-- `A_SpinWait`, the deadline reached. -/
  | spunSlot (sl : Slot) (q : s.seq = .aSpinWait) (e : currentSlot s = some sl) (w : sl.top ≤ s.tcnt) :
    SequencerDid c s { s with port := s.port ||| sl.mask, index := s.index + 1, seq := .aSpin }
  /-- `A_SpinWait`, before the deadline: it holds. -/
  | waited (sl : Slot) (q : s.seq = .aSpinWait) (e : currentSlot s = some sl) (w : s.tcnt < sl.top) :
    SequencerDid c s s
  /-- `A_Prep`. -/
  | preparedA (t : State) (q : s.seq = .aPrep) (p : prepare c { s with seq := .idle } = .next t) :
    SequencerDid c s t
  /-- `B_Run`. -/
  | preparedB (t : State) (q : s.seq = .bRun)
    (p : prepare c { s with port := s.port ||| stagedMask c s, seq := .idle } = .next t) : SequencerDid c s t

/-- Everything a sequencer step can answer with a next state. -/
theorem sequencerStep_next {c : Config} {s t : State} (h : sequencerStep c s = .next t) : SequencerDid c s t := by
  cases hq : s.seq with
  | idle =>
    simp only [sequencerStep, hq] at h
    obtain ha | ha := Bool.eq_false_or_eq_true s.aPending
    · rw [eventPending, ha, Bool.true_or, if_pos rfl] at h
      cases h
      exact .enteredA hq ha
    · obtain hb | hb := Bool.eq_false_or_eq_true s.bPending
      · rw [eventPending, ha, hb, Bool.or_true, if_pos rfl, enter_b ha] at h
        cases h
        exact .enteredB hq ha hb
      · rw [eventPending, ha, hb, Bool.or_false, if_neg Bool.false_ne_true] at h
        cases h
        exact .held hq ha hb
  | aStart1 =>
    simp only [sequencerStep, hq, aStart] at h
    split at h
    case isTrue hz =>
      cases h
      exact .startedCycle hq hz
    case isFalse hz =>
      cases h
      exact .sawWrap hq hz
  | aSpin =>
    simp only [sequencerStep, hq, aSpin] at h
    cases hs : currentSlot s with
    | none => simp [hs] at h
    | some sl =>
      simp only [hs, spinTest] at h
      by_cases hw : sl.top.toNat < s.tcnt.toNat + c.guard.toNat
      · simp only [hw, decide_true, if_true] at h
        cases h
        exact .mustWait sl hq hs hw
      · simp only [hw, decide_false, Bool.false_eq_true, if_false] at h
        cases h
        exact .leftSpin sl hq hs (Nat.not_lt.mp hw)
  | aSpinWait =>
    simp only [sequencerStep, hq, aSpinWait] at h
    cases hs : currentSlot s with
    | none => simp [hs] at h
    | some sl =>
      simp only [hs] at h
      split at h
      case isTrue hw =>
        cases h
        exact .spunSlot sl hq hs hw
      case isFalse hw =>
        cases h
        exact .waited sl hq hs (BitVec.not_le.mp hw)
  | aPrep =>
    simp only [sequencerStep, hq] at h
    exact .preparedA t hq h
  | bRun =>
    simp only [sequencerStep, hq] at h
    exact .preparedB t hq h

end Sys2Proof.Laws
end

