-- ==== Sys2Proof/Laws/Timer.lean ====
section
/-! SUPPORT. What a timer tick leaves in the three registers it writes (60_exceptions.md R250). -/

namespace Sys2Proof.Laws

open Sys2Proof.Machine

/-- The two ways a tick counts, and its compare B on the new count. -/
theorem tick_cases (c : Config) (s : State) :
    (s.tcnt = c.aTop ∧
      tick c s = { s with tcnt := 0#16, aPending := true, bPending := s.bPending || decide (0#16 = s.ocrb) }) ∨
    (s.tcnt ≠ c.aTop ∧
      tick c s = { s with tcnt := s.tcnt + 1#16, bPending := s.bPending || decide (s.tcnt + 1#16 = s.ocrb) }) := by
  by_cases h : s.tcnt = c.aTop
  · refine .inl ⟨h, ?_⟩
    by_cases hb : 0#16 = s.ocrb
    · simp [tick, countTick, compareB, ocra, latchA, latchB, h, ← hb]
    · simp [tick, countTick, compareB, ocra, latchA, h, hb]
  · refine .inr ⟨h, ?_⟩
    by_cases hb : s.tcnt + 1#16 = s.ocrb
    · simp [tick, countTick, compareB, ocra, latchB, h, hb]
    · simp [tick, countTick, compareB, ocra, h, hb]

end Sys2Proof.Laws
end

