-- ==== Sys2Proof/Tests/Slice0.lean ====
section
/-! SUPPORT. Tests on single steps, their expected results from spec/95_test_vectors.md (vector names in the comments), and one
witness or more for the hypotheses of every statement. -/

namespace Sys2Proof.Tests

open Sys2Proof.Machine Sys2Proof.Claims

/-! ## Helpers -/

/-- The answer is a next state with the property. -/
def ends (r : Result) (p : State → Bool) : Bool :=
  match r with
  | .next t => p t
  | .fault _ => false
  | .refused _ => false

/-- The machine's configuration with the spec's test fixture `GT`. -/
def gt : Config :=
  { chip with gamma := gammaFixture }

def chan (b r t : Byte) (v : Word) : Channel :=
  { brightness := b, remainder := r, target := t, speed := v }

/-- Reset with other channels. -/
def withChannels (x y z : Channel) : State :=
  { State.reset with ch := ⟨x, y, z⟩ }

/-- Brightness levels alone. -/
def levels (a b d : Byte) : Channels :=
  ⟨chan a 0 0 0, chan b 0 0 0, chan d 0 0 0⟩

/-- What a rebuild under `gt` leaves: the slots in use, the count, the initial mask. -/
def rebuilt (a b d : Byte) : List Slot × Byte × Byte :=
  (builtSlots gt (levels a b d), (rebuild gt { State.reset with ch := levels a b d }).count,
    builtInitialMask gt (levels a b d))

/-- The marker `M`. -/
def mid : Slot := ⟨65000, 0xFF⟩

/-- Brightness and remainder after a fade step whose draw is 0x5A. -/
def faded (b r t : Byte) (v : Word) : Byte × Byte :=
  ((fadeChannel 0x5A (chan b r t v)).brightness, (fadeChannel 0x5A (chan b r t v)).remainder)

/-- Count and latches after a tick from no latch set. -/
def ticked (n b : Word) : Word × Bool × Bool :=
  ((tick chip { State.reset with tcnt := n, ocrb := b }).tcnt,
    (tick chip { State.reset with tcnt := n, ocrb := b }).aPending,
    (tick chip { State.reset with tcnt := n, ocrb := b }).bPending)

/-- The state with a schedule in use. -/
def scheduled (sl : Slots) (n i nb ib : Byte) : State :=
  { State.reset with slots := sl, count := n, index := i, nextBitmask := nb, initialBitmask := ib }

/-- The schedule of vector RB5 with `GT`. -/
def rb5 : Slots :=
  ⟨⟨15000, 0x01⟩, mid, ⟨6000, 0x03⟩, ⟨0, 0⟩⟩

/-- The schedule of vector Q8. -/
def q8 : Slots :=
  ⟨⟨300, 0x01⟩, mid, ⟨0, 0⟩, ⟨0, 0⟩⟩

/-- What the very next step answers for a command byte placed for it after reset. -/
def runsFirst (op : Nat) (p : State → Bool) : Bool :=
  ends (step (State.reset.withFetchWord 8 op)) p

/-! ## Well-formedness and decoding (30_encoding.md R83, R84) -/

/-- An ill-formed term: 0x31 is `TGT0_DEC`, so `ignore 0x31` stands for no byte; the check refuses it. -/
theorem test_wf_refuses_ignore_of_a_command : (Instr.ignore 0x31).wf = false := by decide

theorem test_wf_refuses_ignore_of_every_command : ∀ op ∈ commandBytes, (Instr.ignore op).wf = false := by decide

theorem test_wf_admits : (Instr.ignore 0x41).wf = true ∧ Instr.tgtHold.wf = true := by decide

/-- The target commands, their bytes bit by bit as in R83. -/
theorem test_decode_targets :
    decode [0b00110000] = .ok (.tgtAllZero, []) ∧ decode [0b00110001] = .ok (.tgt0Dec, []) ∧
    decode [0b00110010] = .ok (.tgt1Dec, []) ∧ decode [0b00110011] = .ok (.tgt2Dec, []) ∧
    decode [0b00110100] = .ok (.tgt0Inc, []) ∧ decode [0b00110101] = .ok (.tgt1Inc, []) ∧
    decode [0b00110110] = .ok (.tgt2Inc, []) ∧ decode [0b00111101] = .ok (.tgtHold, []) :=
  ⟨rfl, rfl, rfl, rfl, rfl, rfl, rfl, rfl⟩

theorem test_decode_speeds :
    decode [0b00111110] = .ok (.speedHalve, []) ∧ decode [0b00111100] = .ok (.speedDouble, []) :=
  ⟨rfl, rfl⟩

theorem test_decode_reports :
    decode [0b01110011, 0x31] = .ok (.reportSpeed, [0x31]) ∧ decode [0b01100010] = .ok (.reportBright, []) :=
  ⟨rfl, rfl⟩

/-- R84: 'S' and 'B' are no commands; the neighbours of the map's bytes fall to no row. -/
theorem test_decode_ignored :
    decodeByte 0b01010011 = .ignore 0x53 ∧ decodeByte 0b01000010 = .ignore 0x42 ∧ decodeByte 0x2F = .ignore 0x2F ∧
    decodeByte 0x37 = .ignore 0x37 ∧ decodeByte 0x3B = .ignore 0x3B ∧ decodeByte 0x3F = .ignore 0x3F :=
  ⟨rfl, rfl, rfl, rfl, rfl, rfl⟩

theorem test_decode_no_byte : decode [] = .error .noByte := rfl

theorem test_table_words :
    decodeTableWord 8 0x30 = some .tgtAllZero ∧ decodeTableWord 8 0x3D = some .tgtHold ∧
    decodeTableWord 8 0x62 = some .reportBright ∧ decodeTableWord 8 0 = some (.ignore 0) := by decide

/-! ## Commands as the first step after reset (95_test_vectors.md 2.7) -/

theorem test_first_step_dec : runsFirst 0x31 (fun t => t.ch.c0.target == 255 && t.rx == [] && t.fg == .checkNewCycle) := by
  decide

theorem test_first_step_report : runsFirst 0x73 (fun t => t.tx == [0x42, 0x01, 0x00]) := by decide

theorem test_first_step_ignore : runsFirst 0x41 (fun t => t.rx == [] && t.tx == [0x42]) := by decide

/-- C-1, C-2. -/
theorem test_tgt0_dec :
    ends (exec .tgt0Dec (withChannels (chan 0 0 0 0) (chan 0 0 9 0) (chan 0 0 8 0)))
      (fun t => t.ch.c0.target == 255 && t.ch.c1.target == 9 && t.ch.c2.target == 8) ∧
    ends (exec .tgt0Dec (withChannels (chan 0 0 7 0) (chan 0 0 9 0) (chan 0 0 8 0))) (fun t => t.ch.c0.target == 6) := by
  decide

/-- C-3. -/
theorem test_tgt1_dec :
    ends (exec .tgt1Dec (withChannels (chan 0 0 1 0) (chan 0 0 128 0) (chan 0 0 2 0)))
      (fun t => t.ch.c0.target == 1 && t.ch.c1.target == 127 && t.ch.c2.target == 2) := by decide

/-- C-4. -/
theorem test_tgt2_dec :
    ends (exec .tgt2Dec (withChannels (chan 0 0 1 0) (chan 0 0 2 0) (chan 0 0 0 0)))
      (fun t => t.ch.c0.target == 1 && t.ch.c1.target == 2 && t.ch.c2.target == 255) := by decide

/-- C-5. -/
theorem test_tgt0_inc :
    ends (exec .tgt0Inc (withChannels (chan 0 0 255 0) (chan 0 0 2 0) (chan 0 0 3 0)))
      (fun t => t.ch.c0.target == 0 && t.ch.c1.target == 2 && t.ch.c2.target == 3) := by decide

/-- C-6. -/
theorem test_tgt1_inc :
    ends (exec .tgt1Inc (withChannels (chan 0 0 1 0) (chan 0 0 254 0) (chan 0 0 3 0)))
      (fun t => t.ch.c0.target == 1 && t.ch.c1.target == 255 && t.ch.c2.target == 3) := by decide

/-- C-7. -/
theorem test_tgt2_inc :
    ends (exec .tgt2Inc (withChannels (chan 0 0 1 0) (chan 0 0 2 0) (chan 0 0 255 0)))
      (fun t => t.ch.c0.target == 1 && t.ch.c1.target == 2 && t.ch.c2.target == 0) := by decide

/-- C-8: brightness stays. -/
theorem test_tgt_all_zero :
    ends (exec .tgtAllZero (withChannels (chan 9 0 3 0) (chan 0 0 200 0) (chan 0 0 255 0)))
      (fun t => t.ch == ⟨chan 9 0 0 0, chan 0 0 0 0, chan 0 0 0 0⟩) := by decide

/-- C-9. -/
theorem test_tgt_hold :
    ends (exec .tgtHold (withChannels (chan 10 0x80 255 0) (chan 0 0 0 0) (chan 200 0 0 0)))
      (fun t => t.ch == ⟨chan 10 0x80 10 0, chan 0 0 0 0, chan 200 0 200 0⟩) := by decide

/-- C-10, C-11. -/
theorem test_speed_halve :
    ends (exec .speedHalve (withChannels (chan 0 0 0 0x0100) (chan 0 0 0 0x0001) (chan 0 0 0 0xFFFF)))
      (fun t => t.ch.c0.speed == 0x0080 && t.ch.c1.speed == 0 && t.ch.c2.speed == 0x7FFF) ∧
    ends (exec .speedHalve (withChannels (chan 0 0 0 0) (chan 0 0 0 0) (chan 0 0 0 0)))
      (fun t => t.ch.c0.speed == 0) := by decide

/-- C-12. -/
theorem test_speed_double :
    ends (exec .speedDouble (withChannels (chan 0 0 0 0x0100) (chan 0 0 0 0x8000) (chan 0 0 0 0x8001)))
      (fun t => t.ch.c0.speed == 0x0200 && t.ch.c1.speed == 0 && t.ch.c2.speed == 0x0002) := by decide

/-- C-13: high byte first. -/
theorem test_report_speed :
    ends (exec .reportSpeed (withChannels (chan 0 0 0 0x1234) (chan 0 0 0 0x5678) (chan 0 0 0 0)))
      (fun t => t.tx == [0x42, 0x12, 0x34]) := by decide

/-- C-14. -/
theorem test_report_bright :
    ends (exec .reportBright (withChannels (chan 11 1 2 3) (chan 0 0 0 0) (chan 255 0 0 0)))
      (fun t => t.tx == [0x42, 0x0B, 0x00, 0xFF]) := by decide

/-- C-15 to C-17. -/
theorem test_ignore (s : State) :
    exec (decodeByte 0x41) s = .next s ∧ exec (decodeByte 0x53) s = .next s ∧ exec (decodeByte 0x00) s = .next s :=
  ⟨rfl, rfl, rfl⟩

/-! ## Gamma and rebuild (2.1, 2.2) -/

theorem test_gamma_lookup :
    [1, 50, 180, 181, 254].map (gammaLookup gt) = [300, 15000, 54000, 300, 22200] := by decide

/-- RB1 to RB5. -/
theorem test_rebuild_low :
    rebuilt 0 0 0 = ([mid], 1, 0xFF) ∧ rebuilt 255 0 0 = ([mid], 1, 0xFE) ∧ rebuilt 255 255 255 = ([mid], 1, 0xF8) ∧
    rebuilt 100 100 50 = ([⟨15000, 0x04⟩, ⟨30000, 0x07⟩, mid], 3, 0xF8) ∧
    rebuilt 50 200 0 = ([⟨15000, 0x01⟩, mid, ⟨6000, 0x03⟩], 3, 0xFC) := by decide

/-- RB6 to RB9. -/
theorem test_rebuild_mid :
    rebuilt 10 20 30 = ([⟨3000, 0x01⟩, ⟨6000, 0x03⟩, ⟨9000, 0x07⟩, mid], 4, 0xF8) ∧
    rebuilt 181 181 181 = ([mid, ⟨300, 0x07⟩], 2, 0xF8) ∧
    rebuilt 180 181 0 = ([⟨54000, 0x01⟩, mid, ⟨300, 0x03⟩], 3, 0xFC) ∧
    rebuilt 254 1 255 = ([⟨300, 0x02⟩, mid, ⟨22200, 0x03⟩], 3, 0xF8) := by decide

/-- RB10 to RB13. -/
theorem test_rebuild_high :
    rebuilt 200 100 200 = ([⟨30000, 0x02⟩, mid, ⟨6000, 0x07⟩], 3, 0xF8) ∧
    rebuilt 0 0 180 = ([⟨54000, 0x04⟩, mid], 2, 0xFB) ∧ rebuilt 50 50 50 = ([⟨15000, 0x07⟩, mid], 2, 0xF8) ∧
    rebuilt 200 190 181 = ([mid, ⟨300, 0x04⟩, ⟨3000, 0x06⟩, ⟨6000, 0x07⟩], 4, 0xF8) := by decide

/-- "Entries past `count` are unchanged", and `index` and `next_bitmask` become 0. -/
theorem test_rebuild_leaves_the_rest :
    rebuild gt { scheduled ⟨⟨1, 2⟩, ⟨3, 4⟩, ⟨5, 6⟩, ⟨7, 8⟩⟩ 4 3 9 0 with ch := levels 0 0 180 } =
      { scheduled ⟨⟨54000, 0x04⟩, mid, ⟨5, 6⟩, ⟨7, 8⟩⟩ 2 0 0 0xFB with ch := levels 0 0 180 } := by decide

/-! ## Fade (2.3); the draw is 0x5A -/

/-- F1 to F7. -/
theorem test_fade_up :
    faded 10 0x00 255 0x0180 = (11, 0x80) ∧ faded 11 0x80 255 0x0180 = (13, 0x00) ∧
    faded 0 0x00 255 0x0100 = (1, 0x00) ∧ faded 254 0x80 255 0x0100 = (255, 0x80) ∧
    faded 250 0x00 252 0x0400 = (252, 0x5A) ∧ faded 200 0x00 255 0x8000 = (255, 0x5A) ∧
    faded 10 200 20 0xFFFF = (10, 199) := by decide

/-- F8 to F15. -/
theorem test_fade_down :
    faded 100 0x00 0 0x0100 = (99, 0x00) ∧ faded 10 0x80 0 0x0100 = (9, 0x80) ∧ faded 10 0x00 9 0x0100 = (9, 0x00) ∧
    faded 5 0x00 4 0x0200 = (4, 0x5A) ∧ faded 1 0x00 0 0x0200 = (0, 0x5A) ∧ faded 5 10 0 0xFFFF = (5, 11) ∧
    faded 77 0x33 77 0xFFFF = (77, 0x33) ∧ faded 10 5 200 0x0000 = (10, 5) := by decide

/-! ## Timer (2.4) -/

/-- T1 to T6. -/
theorem test_tick :
    ticked 63999 65000 = (64000, false, false) ∧ ticked 64000 65000 = (0, true, false) ∧
    ticked 99 100 = (100, false, true) ∧ ticked 100 100 = (101, false, false) ∧
    ticked 64000 0 = (0, true, true) ∧ ticked 5 3 = (6, false, false) := by decide

/-! ## Entry and handlers (2.5) -/

/-- Q1: an A event at reset, whole. -/
theorem test_a_event_at_reset :
    ends (runMoves gt [.sequencer, .sequencer, .sequencer, .sequencer] { State.reset with aPending := true })
      (fun t => t == { State.reset with newCycle := true, nextBitmask := 0xFF, index := 1 }) := by decide

/-- Q2: the mid-cycle wrap. -/
theorem test_mid_cycle_wrap :
    ends (runMoves gt [.sequencer, .sequencer, .sequencer]
        { scheduled rb5 3 2 0xFF 0xFC with port := 0xFD, aPending := true })
      (fun t => t.port == 0xFD && !t.newCycle && t.ocrb == 6000 && t.nextBitmask == 0x03 && t.index == 3 &&
        t.seq == .idle) := by decide

/-- Q3: the wrap where the marker is last. -/
theorem test_wrap_marker_last :
    ends (runMoves gt [.sequencer, .sequencer, .sequencer]
        { scheduled ⟨mid, ⟨0, 0⟩, ⟨0, 0⟩, ⟨0, 0⟩⟩ 1 1 0xFF 0xFF with aPending := true })
      (fun t => t.index == 0 && t.lastPulse && t.ocrb == 65000 && t.nextBitmask == 0xFF) := by decide

/-- Q4: a B event that stages the next slot. -/
theorem test_b_event_stages :
    ends (runMoves gt [.sequencer, .sequencer]
        { scheduled ⟨⟨15000, 0x01⟩, ⟨30000, 0x07⟩, mid, ⟨0, 0⟩⟩ 3 1 0x01 0 with port := 0xFA, bPending := true })
      (fun t => t.port == 0xFB && t.ocrb == 30000 && t.nextBitmask == 0x07 && t.index == 2) := by decide

/-- Q5: the B event of the last slot. -/
theorem test_b_event_last :
    ends (runMoves gt [.sequencer, .sequencer] { scheduled rb5 3 3 0x03 0xFC with port := 0xFD, bPending := true })
      (fun t => t.port == 0xFF && t.index == 0 && t.lastPulse && t.ocrb == 65000 && t.nextBitmask == 0x03) := by decide

/-- Q6: A before B. -/
theorem test_enter_a_first :
    ends (sequencerStep gt { State.reset with aPending := true, bPending := true })
      (fun t => t.seq == .aStart1 && !t.aPending && t.bPending && t.faults == []) := by decide

/-- Q7: the late rebuild. -/
theorem test_enter_late :
    ends (sequencerStep gt { State.reset with aPending := true, lastPulse := true })
      (fun t => t.seq == .aStart1 && t.faults == [.rebuildLate]) := by decide

/-- Q8: the spin waits for the deadline, outputs the slot, and stops at the marker. -/
theorem test_spin :
    ends (sequencerStep gt { scheduled q8 2 0 0 0xFE with tcnt := 2, seq := .aSpin, port := 0xFE })
      (fun t => t.seq == .aSpinWait) ∧
    ends (sequencerStep gt { scheduled q8 2 0 0 0xFE with tcnt := 299, seq := .aSpinWait, port := 0xFE })
      (fun t => t.seq == .aSpinWait && t.port == 0xFE && t.index == 0) ∧
    ends (runMoves gt [.sequencer, .sequencer, .sequencer]
        { scheduled q8 2 0 0 0xFE with tcnt := 300, seq := .aSpinWait, port := 0xFE })
      (fun t => t.port == 0xFF && t.ocrb == 65000 && t.nextBitmask == 0xFF && t.index == 2 && t.seq == .idle) := by
  decide

/-- Q9: no spin where the first deadline is far. -/
theorem test_no_spin :
    ends (runMoves gt [.sequencer, .sequencer]
        { scheduled ⟨⟨3000, 0x01⟩, ⟨6000, 0x03⟩, ⟨9000, 0x07⟩, mid⟩ 4 0 0 0xF8 with tcnt := 4, seq := .aSpin })
      (fun t => t.ocrb == 3000 && t.nextBitmask == 0x01 && t.index == 1 && t.seq == .idle) := by decide

/-! ## Foreground (2.6) -/

/-- FG1, FG2. -/
theorem test_check_new_cycle :
    ends (foregroundStep gt
        { withChannels (chan 10 0 255 0x0180) (chan 0 0 0 0) (chan 0 0 0 0) with newCycle := true })
      (fun t => !t.newCycle && t.ch.c0 == chan 11 0x80 255 0x0180 && t.fg == .checkLastPulse) ∧
    ends (foregroundStep gt State.reset) (fun t => t == { State.reset with fg := .checkLastPulse }) := by decide

/-- FG3. -/
theorem test_check_last_pulse :
    ends (foregroundStep gt { State.reset with ch := levels 10 20 30, fg := .checkLastPulse, lastPulse := true })
      (fun t => !t.lastPulse && t.slots == ⟨⟨3000, 0x01⟩, ⟨6000, 0x03⟩, ⟨9000, 0x07⟩, mid⟩ && t.index == 0 &&
        t.nextBitmask == 0 && t.tx == [0x42, 0x04] && t.fg == .dispatch) := by decide

/-- FG4, FG5. -/
theorem test_dispatch :
    ends (foregroundStep gt { State.reset with fg := .dispatch }) (fun t => t == State.reset) ∧
    ends (foregroundStep gt { State.reset with fg := .dispatch, rx := [0x34, 0x34] })
      (fun t => t.rx == [0x34] && t.ch.c0.target == 1 && t.fg == .checkNewCycle) := by decide

/-- R257: with a latch set the foreground holds. -/
theorem test_foreground_held :
    ends (foregroundStep gt { State.reset with bPending := true, fg := .dispatch, rx := [0x34] })
      (fun t => t.rx == [0x34] && t.fg == .dispatch) := by decide

/-! ## Witnesses: for each statement with hypotheses, a state and operands that meet them, clause by clause -/

/-- Reset with the foreground at `Dispatch`. -/
def atDispatch (rx : List Byte) (ms : List Move) : State :=
  { State.reset with fg := .dispatch, rx := rx, script := ms }

/-- The spin waiting for the first slot of vector Q8. -/
def spinning : State :=
  { scheduled q8 2 0 0 0xFE with tcnt := 2, seq := .aSpinWait }

theorem gt_admitted : gt.Admitted := by
  refine ⟨by decide, Laws.gammaFixture_admitted, ?_⟩
  show Config.TopsAdmitted gt
  unfold Config.TopsAdmitted
  rw [BitVec.lt_def]
  decide

/-- The witness of `Inv` at a state of a run that waits in the spin. -/
theorem spinning_legal : Inv chip spinning := by
  refine ⟨by decide, by decide, by decide, by decide, ?_, ⟨1, by decide, rfl⟩, ?_, by decide, by decide⟩
  · intro i hi sl hsl
    have bound : i < 2 := hi
    interval_cases i <;> cases hsl
    · exact ⟨by decide, .inr ⟨by decide, by decide⟩⟩
    · exact ⟨by decide, .inl rfl⟩
  · exact ⟨⟨1, ⟨by decide, rfl⟩, by decide⟩, ⟨300, 0x01⟩, rfl, by decide⟩

theorem test_witness_OpcodeMapDecodes : 0x41 ∉ commandBytes ∧ 0x37 ∉ commandBytes ∧ 0x53 ∉ commandBytes := by decide

theorem test_witness_CommandStreamRoundTrip : ∀ i ∈ [Instr.tgt0Dec, .ignore 0x41, .reportSpeed], i.wf = true := by decide

theorem test_witness_StepRunsDecodedCommand :
    Quiet (atDispatch [0x31, 0x41] [.foreground]) ∧ (atDispatch [0x31, 0x41] [.foreground]).fg = .dispatch ∧
    (atDispatch [0x31, 0x41] [.foreground]).script = .foreground :: [] ∧
    decode (atDispatch [0x31, 0x41] [.foreground]).rx = .ok (.tgt0Dec, [0x41]) ∧
    Quiet (atDispatch [] [.foreground]) ∧ (atDispatch [] [.foreground]).rx = [] :=
  ⟨⟨rfl, rfl, rfl⟩, rfl, rfl, rfl, ⟨rfl, rfl, rfl⟩, rfl⟩

theorem test_witness_DispatchStep :
    (Quiet (atDispatch [0x62] []) ∧ (atDispatch [0x62] []).fg = .dispatch ∧ (atDispatch [0x62] []).rx = 0x62 :: []) ∧
    Quiet (atDispatch [] []) ∧ (atDispatch [] []).fg = .dispatch ∧ (atDispatch [] []).rx = [] :=
  ⟨⟨⟨rfl, rfl, rfl⟩, rfl, rfl⟩, ⟨rfl, rfl, rfl⟩, rfl, rfl⟩

theorem test_witness_StepMakesTheChosenMove :
    (atDispatch [] [.tick, .sequencer]).script = .tick :: [.sequencer] ∧ (atDispatch [] []).script = [] :=
  ⟨rfl, rfl⟩

theorem test_witness_OtherBytesIgnored : 0x00 ∉ commandBytes ∧ 0xFF ∉ commandBytes ∧ 0x42 ∉ commandBytes := by decide

/-- Fading up from 10:200 to 20, at the last sum that is accepted, the first and the last that clamp, the first that wraps
unseen. -/
theorem test_witness_FadeStepExact_up :
    (10 : Byte) < 20 ∧ fixedPoint (chan 10 200 20 2615) + 2615 = 256 * (20 + 1) - 1 ∧
    fixedPoint (chan 10 200 20 2616) + 2616 = 256 * (20 + 1) ∧
    fixedPoint (chan 10 200 20 65335) + 65335 = 65536 + 256 * 10 - 1 ∧
    fixedPoint (chan 10 200 20 65336) + 65336 = 65536 + 256 * 10 := by decide

/-- Fading down from 5:10 to 0 at the same boundaries. -/
theorem test_witness_FadeStepExact_down :
    (0 : Byte) < 5 ∧ 256 * 0 + 1290 = fixedPoint (chan 5 10 0 1290) ∧
    fixedPoint (chan 5 10 0 1291) + 1 = 256 * 0 + 1291 ∧ 65290 + 1 = 65281 + (chan 5 10 0 65290).remainder.toNat ∧
    65291 = 65281 + (chan 5 10 0 65291).remainder.toNat := by decide

/-- The results at those boundaries, by hand from R131. -/
theorem test_fade_boundaries :
    faded 10 200 20 2615 = (20, 255) ∧ faded 10 200 20 2616 = (20, 0x5A) ∧ faded 10 200 20 65335 = (20, 0x5A) ∧
    faded 10 200 20 65336 = (10, 0) ∧ faded 5 10 0 1290 = (0, 0) ∧ faded 5 10 0 1291 = (0, 0x5A) ∧
    faded 5 10 0 65290 = (0, 0x5A) ∧ faded 5 10 0 65291 = (5, 255) := by decide

theorem test_witness_FadeFrozenAtSpeedZero : (chan 10 5 200 0).speed = 0 := rfl

theorem test_witness_FadeUnseenWrap :
    ((10 : Byte) < 20 ∧ 65536 = (chan 10 200 20 65336).speed.toNat + (chan 10 200 20 65336).remainder.toNat) ∧
    (0 : Byte) < 5 ∧ 65281 + (chan 5 10 0 65291).remainder.toNat = (chan 5 10 0 65291).speed.toNat := by decide

theorem test_witness_FadeMonotoneNoOvershoot : (10 : Byte) ≤ 255 ∧ (0 : Byte) ≤ 100 ∧ (77 : Byte) ≤ 77 := by decide

/-- Both ends of the speed range, in both directions, and the durations of vectors 2.3. -/
theorem test_witness_FadeDurationExact :
    (1 ≤ (chan 0 0 1 1).speed.toNat ∧ (chan 0 0 1 1).speed.toNat ≤ 65280 ∧ (0 : Byte) < 1 ∧
      (256 * 1 - fixedPoint (chan 0 0 1 1) + 1 - 1) / 1 = 256) ∧
    (1 ≤ (chan 10 0 0 65280).speed.toNat ∧ (chan 10 0 0 65280).speed.toNat ≤ 65280 ∧ (0 : Byte) < 10) ∧
    (256 * 255 - fixedPoint (chan 10 0 255 0x0180) + 0x0180 - 1) / 0x0180 = 164 ∧
    (256 * 255 - fixedPoint (chan 0 0 255 0x0100) + 0x0100 - 1) / 0x0100 = 255 ∧
    (fixedPoint (chan 10 0 0 0x0100) - 256 * 0 - 255 + 0x0100 - 1) / 0x0100 = 10 := by decide

theorem test_witness_RebuildWritesTheSchedule :
    0 < gt.midLevel.toNat ∧ 2 < (schedule gt (levels 50 200 0)).length ∧
    (schedule gt (levels 50 200 0)).length ≤ 3 := by decide

theorem test_witness_InitialBitmaskBits :
    gt.MasksAdmitted ∧ ∀ k, (gt.chMask k).getLsbD 3 = false :=
  ⟨gt_admitted.1, fun k => by cases k <;> rfl⟩

theorem test_witness_ScheduleShape : gt.Admitted ∧ 0 < gt.midLevel.toNat := ⟨gt_admitted, by decide⟩

theorem test_witness_ExtremeLevelsGiveNoSlot :
    gt.Admitted ∧ brightnessOf (levels 0 255 100) .c0 = 0 ∧ brightnessOf (levels 0 255 100) .c1 = 255 ∧
    (⟨30000, 0x04⟩ : Slot) ∈ builtSlots gt (levels 0 255 100) ∧ (⟨30000, 0x04⟩ : Slot) ≠ marker gt :=
  ⟨gt_admitted, rfl, rfl, by decide, by decide⟩

/-- The two sides of the sentinel test, of the spin test (deadline 3000, guard 500) and of the wait. -/
theorem test_witness_AHandlerMicroSteps :
    ({ State.reset with seq := .aStart1 } : State).nextBitmask = 0 ∧
    ({ State.reset with seq := .aStart1, nextBitmask := 1 } : State).nextBitmask ≠ 0 ∧
    (⟨⟨3000, 0x01⟩, mid, ⟨0, 0⟩, ⟨0, 0⟩⟩ : Slots).get? 0 = some ⟨3000, 0x01⟩ ∧
    3000 < (2501 : Word).toNat + gt.guard.toNat ∧ (2500 : Word).toNat + gt.guard.toNat ≤ 3000 ∧
    (3000 : Word).toNat ≤ (3000 : Word).toNat ∧ (2999 : Word).toNat < (3000 : Word).toNat := by decide

/-- What the handler does on the two sides of those tests. -/
theorem test_spin_boundaries :
    ends (sequencerStep gt
      { scheduled ⟨⟨3000, 0x01⟩, mid, ⟨0, 0⟩, ⟨0, 0⟩⟩ 2 0 0 0 with tcnt := 2501, seq := .aSpin })
      (fun t => t.seq == .aSpinWait) ∧
    ends (sequencerStep gt
      { scheduled ⟨⟨3000, 0x01⟩, mid, ⟨0, 0⟩, ⟨0, 0⟩⟩ 2 0 0 0 with tcnt := 2500, seq := .aSpin })
      (fun t => t.seq == .aPrep) := by decide

theorem test_witness_PrepareBranches :
    (scheduled rb5 3 3 1 0).count.toNat ≤ (scheduled rb5 3 3 1 0).index.toNat ∧
    (scheduled rb5 3 2 1 0).index.toNat < (scheduled rb5 3 2 1 0).count.toNat ∧
    (scheduled rb5 3 2 1 0).slots.get? 2 = some ⟨6000, 0x03⟩ := by decide

theorem test_witness_BHandlerStep :
    ({ State.reset with seq := .bRun } : State).seq = .bRun ∧ State.reset.nextBitmask = 0 ∧
    (¬((0x01 : Byte) = gt.midMask ∧ gt.aTop < (300 : Word))) ∧ (0xFF : Byte) = gt.midMask ∧
    gt.aTop < (65000 : Word) := by decide

theorem test_witness_PrepareWalksTheSchedule :
    (scheduled rb5 3 0 0 0).index = 0 ∧ 1 ≤ (scheduled rb5 3 0 0 0).count.toNat ∧
    (scheduled rb5 3 0 0 0).count.toNat ≤ 4 ∧ (scheduled rb5 3 0 0 0).slots.get? 2 = some ⟨6000, 0x03⟩ ∧
    State.reset.count.toNat = 1 ∧ State.reset.slots.get? (1 - 1) = some mid := by decide

theorem test_witness_WrapOnlyPrepares :
    ({ scheduled rb5 3 2 0xFF 0 with aPending := true } : State).seq = .idle ∧
    (scheduled rb5 3 2 0xFF 0).nextBitmask ≠ 0 ∧ (scheduled rb5 3 2 0xFF 0).index.toNat < 3 ∧
    (scheduled rb5 3 2 0xFF 0).slots.get? 2 = some ⟨6000, 0x03⟩ ∧ (scheduled rb5 3 2 0xFF 0).lastPulse = false := by
  decide

/-- The boundary of the spin test: 14500 + 500 = 15000. -/
theorem test_witness_CycleStartStagesFirstSlot :
    ({ scheduled rb5 3 0 0 0xFC with aPending := true, tcnt := 14500 } : State).seq = .idle ∧
    (scheduled rb5 3 0 0 0xFC).nextBitmask = 0 ∧ (scheduled rb5 3 0 0 0xFC).index.toNat < 3 ∧
    (scheduled rb5 3 0 0 0xFC).slots.get? 0 = some ⟨15000, 0x01⟩ ∧
    (14500 : Word).toNat + gt.guard.toNat = (15000 : Word).toNat := by decide

theorem test_witness_SpinWaitEnds : Inv chip spinning ∧ spinning.seq = .aSpinWait := ⟨spinning_legal, rfl⟩

/-- The schedule of vector P5. -/
theorem test_witness_WholeCycleOfEvents :
    gt.Admitted ∧ 0 < gt.midLevel.toNat ∧ gt.midMask ≠ 0 ∧ Quiet { State.reset with ch := levels 50 200 0 } ∧
    gt.aTop < State.reset.ocrb ∧
    (rebuild gt { State.reset with ch := levels 50 200 0 }).slots.get? 0 = some ⟨15000, 0x01⟩ ∧
    State.reset.tcnt.toNat + gt.guard.toNat ≤ (15000 : Word).toNat :=
  ⟨gt_admitted, by decide, by decide, ⟨rfl, rfl, rfl⟩, by decide, by decide, by decide⟩

theorem test_witness_PortWrittenOnlyByHandlers :
    (∃ t, moveStep gt .tick State.reset = .next t) ∧
    (∃ t, moveStep gt .sequencer { State.reset with seq := .aStart1 } = .next t) ∧
    (∃ t, moveStep gt .sequencer { spinning with tcnt := 300 } = .next t) ∧
    ∃ t, moveStep gt .sequencer { State.reset with seq := .bRun } = .next t :=
  ⟨⟨_, rfl⟩, ⟨_, rfl⟩, ⟨_, rfl⟩, ⟨_, rfl⟩⟩

theorem test_witness_CheckNewCycleStep :
    Quiet State.reset ∧ State.reset.fg = .checkNewCycle ∧ State.reset.newCycle = false ∧
    Quiet { State.reset with newCycle := true } ∧ ({ State.reset with newCycle := true } : State).newCycle = true :=
  ⟨⟨rfl, rfl, rfl⟩, rfl, rfl, ⟨rfl, rfl, rfl⟩, rfl⟩

theorem test_witness_CheckLastPulseStep :
    Quiet { State.reset with fg := .checkLastPulse } ∧
    Quiet { State.reset with fg := .checkLastPulse, lastPulse := true } ∧
    ({ State.reset with fg := .checkLastPulse, lastPulse := true } : State).lastPulse = true :=
  ⟨⟨rfl, rfl, rfl⟩, ⟨rfl, rfl, rfl⟩, rfl⟩

theorem test_witness_ForegroundCyclesPositions : Quiet (atDispatch [0x30] []) := ⟨rfl, rfl, rfl⟩

theorem test_witness_ForegroundNeverWritesPortOrTimer :
    (∃ t, foregroundStep gt State.reset = .next t) ∧
    ∃ t, foregroundStep gt { State.reset with fg := .checkLastPulse, lastPulse := true } = .next t :=
  ⟨⟨_, rfl⟩, ⟨_, rfl⟩⟩

/-- At `A_TOP`, below it, at a match, at none, and from 0 with the latch clear. -/
theorem test_witness_TimerTick :
    ({ State.reset with tcnt := 64000 } : State).tcnt = gt.aTop ∧ State.reset.tcnt ≠ gt.aTop ∧
    (tick gt { State.reset with ocrb := 1 }).tcnt = 1 ∧ (tick gt State.reset).tcnt ≠ State.reset.ocrb ∧
    State.reset.tcnt = 0 ∧ State.reset.aPending = false := by decide

/-- The deadline one tick ahead, the deadline already met, and the first value that never matches. -/
theorem test_witness_CompareBMatch :
    (1 = if (99 : Word).toNat < (100 : Word).toNat then (100 : Word).toNat - (99 : Word).toNat
      else gt.aTop.toNat + 1 - (99 : Word).toNat + (100 : Word).toNat) ∧
    (64001 = if (100 : Word).toNat < (100 : Word).toNat then (100 : Word).toNat - (100 : Word).toNat
      else gt.aTop.toNat + 1 - (100 : Word).toNat + (100 : Word).toNat) ∧
    (100 : Word).toNat ≤ gt.aTop.toNat ∧ State.reset.bPending = false ∧ gt.aTop.toNat < (64001 : Word).toNat ∧
    ∃ t, prepare gt State.reset = .next t :=
  ⟨by decide, by decide, by decide, rfl, by decide, _, rfl⟩

theorem test_witness_NoTickSetsBothLatches :
    Inv chip spinning ∧ spinning.aPending = false ∧ spinning.bPending = false := ⟨spinning_legal, rfl, rfl⟩

theorem test_witness_EnterHandler :
    ({ State.reset with aPending := true } : State).seq = .idle ∧
    ({ State.reset with bPending := true } : State).aPending = false := ⟨rfl, rfl⟩

theorem test_witness_HeldAgents :
    spinning.seq ≠ .idle ∧ Quiet State.reset ∧ ({ State.reset with bPending := true } : State).bPending = true ∧
    gt.aTop ≠ 0 := ⟨by decide, ⟨rfl, rfl, rfl⟩, rfl, by decide⟩

/-- A step that sets `new_cycle` and one that clears it. -/
theorem test_witness_NewCycleWriters :
    ends (moveStep gt .sequencer { State.reset with seq := .aStart1 }) (fun t => t.newCycle) ∧
    ends (moveStep gt .foreground { State.reset with newCycle := true }) (fun t => !t.newCycle) ∧
    Quiet State.reset ∧ State.reset.fg = .checkNewCycle := ⟨by decide, by decide, ⟨rfl, rfl, rfl⟩, rfl⟩

/-- A step that raises `last_pulse` and one that clears it. -/
theorem test_witness_LastPulseWriters :
    ends (moveStep gt .sequencer { State.reset with seq := .aPrep, index := 1 }) (fun t => t.lastPulse) ∧
    ends (moveStep gt .foreground { State.reset with fg := .checkLastPulse, lastPulse := true })
      (fun t => !t.lastPulse) ∧
    Quiet { State.reset with fg := .checkLastPulse } := ⟨by decide, by decide, rfl, rfl, rfl⟩

/-- Steps that set and clear each latch. -/
theorem test_witness_LatchWriters :
    ends (moveStep gt .tick { State.reset with tcnt := 64000 }) (fun t => t.aPending) ∧
    ends (moveStep gt .sequencer { State.reset with aPending := true }) (fun t => !t.aPending) ∧
    ends (moveStep gt .tick { State.reset with ocrb := 1 }) (fun t => t.bPending) ∧
    ends (moveStep gt .sequencer { State.reset with bPending := true }) (fun t => !t.bPending) := by decide

theorem test_witness_AgentFrames :
    (∃ t, moveStep gt .tick State.reset = .next t) ∧ (∃ t, moveStep gt .sequencer State.reset = .next t) ∧
    (∃ t, moveStep gt .foreground State.reset = .next t) ∧ (∃ t, moveStep gt (.hostSend 0x30) State.reset = .next t) ∧
    ∃ t, moveStep gt .hostTake State.reset = .next t := ⟨⟨_, rfl⟩, ⟨_, rfl⟩, ⟨_, rfl⟩, ⟨_, rfl⟩, ⟨_, rfl⟩⟩

theorem test_witness_HandlersNeverReadChannels : Move.tick = .tick ∨ Move.tick = .sequencer := .inl rfl

/-- A step for each way a queue can change. -/
theorem test_witness_QueueDiscipline :
    ends (moveStep gt (.hostSend 7) State.reset) (fun t => t.rx == [7]) ∧
    ends (moveStep gt .foreground (atDispatch [0x41] [])) (fun t => t.rx == []) ∧
    ends (moveStep gt .hostTake State.reset) (fun t => t.tx == []) ∧
    ends (moveStep gt .foreground (atDispatch [0x73] [])) (fun t => t.tx == [0x42, 0x01, 0x00]) := by decide

theorem test_witness_FaultsStayRecorded :
    ends (moveStep gt .sequencer { State.reset with aPending := true, lastPulse := true })
      (fun t => t.faults == [.rebuildLate]) ∧
    ends (moveStep gt .tick { State.reset with faults := [.rebuildLate] }) (fun t => t.faults == [.rebuildLate]) := by
  decide

theorem test_witness_HostMoves : State.reset.tx = 0x42 :: [] ∧ ({ State.reset with tx := [] } : State).tx = [] := ⟨rfl, rfl⟩

/-- A guard of 1001 ticks breaks R9 (e): 64000 + 1001 > 65000. -/
theorem test_witness_BadConfigRefused : ¬({ gt with guard := 1001 } : Config).Admitted := by
  rintro ⟨-, -, -, -, h⟩
  exact absurd h (by decide)

/-- A legal state of the machine's own configuration, other than reset, with a step from it. -/
theorem test_witness_StepKeepsLegal :
    Inv chip { State.reset with tcnt := 5, script := [.tick] } ∧
    ∃ t, step { State.reset with tcnt := 5, script := [.tick] } = .next t := by
  refine ⟨⟨by decide, by decide, by decide, by decide, ?_, ⟨0, by decide, rfl⟩, fun _ => rfl, by decide, by decide⟩,
    _, rfl⟩
  intro i hi sl hsl
  have bound : i < 1 := hi
  interval_cases i
  cases hsl
  exact ⟨by decide, .inl rfl⟩

theorem test_witness_LegalStatesNeverStop : Inv chip { State.reset with tcnt := 5, script := [.tick] } :=
  test_witness_StepKeepsLegal.1

/-- The B handler running for the first slot of vector Q8, and the same with a B event waiting. -/
def inBHandler (late : Bool) : State :=
  { scheduled q8 2 1 0x01 0xFE with ocrb := 300, tcnt := 300, seq := .bRun, bPending := late, script := [.sequencer] }

theorem inBHandler_clear (late : Bool) : MarkerClear chip (inBHandler late) := by
  have low : ∀ i < 2, ∀ sl, q8.get? i = some sl → sl = mid ∨ sl = ⟨300, 0x01⟩ := by
    intro i hi sl hsl
    interval_cases i <;> cases hsl
    · exact .inr rfl
    · exact .inl rfl
  have within : WithinChannels chip 0x01 := by
    unfold WithinChannels
    decide
  refine ⟨⟨by decide +revert, by decide +revert, by decide +revert, by decide +revert, ?_, ⟨1, by decide +revert, rfl⟩, ?_,
    by decide +revert, by decide +revert⟩, ?_, .inr within⟩
  · intro i hi sl hsl
    obtain rfl | rfl := low i hi sl hsl
    · exact ⟨by decide, .inl rfl⟩
    · exact ⟨by decide, .inr ⟨by decide, by decide⟩⟩
  · intro h
    exact absurd (show (1 : Byte) = 0 from h) (by decide)
  · intro i hi sl hsl
    obtain rfl | rfl := low i hi sl hsl
    · exact .inl rfl
    · exact .inr within

/-- A step with no old B event before it, and one that prepares over a waiting B event. -/
theorem test_witness_MarkerMaskNeverOred :
    (MarkerClear chip (inBHandler false) ∧ NoOldB chip (inBHandler false) ∧ ¬PreparesOverB (inBHandler false) ∧
      ∃ t, step (inBHandler false) = .next t) ∧
    MarkerClear chip (inBHandler true) ∧ PreparesOverB (inBHandler true) ∧ ∃ t, step (inBHandler true) = .next t :=
  ⟨⟨inBHandler_clear false, fun h => absurd h (by decide), fun h => Bool.false_ne_true h.2, _, rfl⟩,
    inBHandler_clear true, ⟨.inr rfl, rfl⟩, _, rfl⟩

/-- Both latches set before the marker is staged: A is entered first and stages the marker (R258), the old B event then
enters the B handler (R256), which prepares the next slot (R157) and leaves the channel at 255 lit (R158, R112). -/
theorem test_old_b_event_after_marker :
    ends (runMoves gt [.sequencer, .sequencer, .sequencer, .sequencer, .sequencer]
        { scheduled q8 2 1 0x01 0xFC with ocrb := 300, aPending := true, bPending := true, port := 0xFC })
      (fun t => t.port == 0xFC && t.lastPulse && t.index == 0 && t.faults == []) := by decide

end Sys2Proof.Tests
end

