-- ==== Sys2Proof/Proofs/StatusBits.lean ====
section
/-! PROOFS. Who writes the four status bits (10_state.md R28, R29, R33): what each agent's move does to each of them, one
lemma per agent and bit, and the three obligations put together from those. -/

namespace Sys2Proof.Proofs

open Sys2Proof.Machine Sys2Proof.Laws Sys2Proof.Claims

/-! ### The status bits under the foreground's two routines -/

@[simp] theorem fade_newCycle (s : State) : (fade s).newCycle = s.newCycle := rfl

@[simp] theorem rebuildAndReport_lastPulse (c : Config) (s : State) :
    (rebuildAndReport c s).lastPulse = s.lastPulse := rfl

/-- `TestAndClear` of `new_cycle`: 0 after the step, whatever it was before (R231). -/
@[simp] theorem checkNewCycle_newCycle (s : State) : (checkNewCycle s).newCycle = false := by
  cases h : s.newCycle <;> simp [checkNewCycle, h]

/-- `TestAndClear` of `last_pulse`: 0 after the step, whatever it was before (R232). -/
@[simp] theorem checkLastPulse_lastPulse (c : Config) (s : State) : (checkLastPulse c s).lastPulse = false := by
  cases h : s.lastPulse <;> simp [checkLastPulse, h]

/-! ### The timer's tick -/

@[simp] theorem tick_newCycle (c : Config) (s : State) : (tick c s).newCycle = s.newCycle := by
  obtain ⟨-, e⟩ | ⟨-, e⟩ := tick_cases c s <;> rw [e]

@[simp] theorem tick_lastPulse (c : Config) (s : State) : (tick c s).lastPulse = s.lastPulse := by
  obtain ⟨-, e⟩ | ⟨-, e⟩ := tick_cases c s <;> rw [e]

/-- Compare A latches on the old count (R250). -/
theorem tick_aPending (c : Config) (s : State) :
    (tick c s).aPending = (s.aPending || decide (s.tcnt = c.aTop)) := by
  obtain ⟨h, e⟩ | ⟨h, e⟩ := tick_cases c s <;> simp [e, h]

/-- Compare B latches on the new count (R250, R252). -/
theorem tick_bPending (c : Config) (s : State) :
    (tick c s).bPending = (s.bPending || decide ((tick c s).tcnt = s.ocrb)) := by
  obtain ⟨-, e⟩ | ⟨-, e⟩ := tick_cases c s <;> rw [e]

/-! ### The sequencer's step -/

section Sequencer

variable {c : Config} {s t : State}

theorem prepare_newCycle (h : prepare c s = .next t) : t.newCycle = s.newCycle := by
  obtain ⟨-, rfl⟩ | ⟨-, sl, -, rfl⟩ := prepare_next h <;> rfl

theorem prepare_aPending (h : prepare c s = .next t) : t.aPending = s.aPending := by
  obtain ⟨-, rfl⟩ | ⟨-, sl, -, rfl⟩ := prepare_next h <;> rfl

theorem prepare_bPending (h : prepare c s = .next t) : t.bPending = s.bPending := by
  obtain ⟨-, rfl⟩ | ⟨-, sl, -, rfl⟩ := prepare_next h <;> rfl

/-- Slot preparation raises `last_pulse` in the exhausted branch and leaves it alone in the other (R159). -/
theorem prepare_lastPulse (h : prepare c s = .next t) :
    t.lastPulse = s.lastPulse ∨ t.lastPulse = true ∧ s.count ≤ s.index := by
  obtain ⟨exhausted, rfl⟩ | ⟨-, sl, -, rfl⟩ := prepare_next h
  · exact .inr ⟨rfl, exhausted⟩
  · exact .inl rfl

theorem enter_newCycle (s : State) : (enter s).newCycle = s.newCycle := by
  cases h : s.aPending <;> simp [enter, checkRebuildLate, h]

theorem enter_lastPulse (s : State) : (enter s).lastPulse = s.lastPulse := by
  cases h : s.aPending <;> simp [enter, checkRebuildLate, h]

theorem sequencerStep_newCycle (h : sequencerStep c s = .next t) :
    t.newCycle = s.newCycle ∨ t.newCycle = true ∧ s.seq = .aStart1 ∧ s.nextBitmask = 0 := by
  cases sequencerStep_next h with
  | startedCycle q z => exact .inr ⟨rfl, q, z⟩
  | enteredA => exact .inl (enter_newCycle s)
  | preparedA _ _ p => exact .inl (prepare_newCycle p :)
  | preparedB _ _ p => exact .inl (prepare_newCycle p :)
  | _ => exact .inl rfl

theorem sequencerStep_lastPulse (h : sequencerStep c s = .next t) :
    t.lastPulse = s.lastPulse ∨ t.lastPulse = true ∧ (s.seq = .aPrep ∨ s.seq = .bRun) ∧ s.count ≤ s.index := by
  cases sequencerStep_next h with
  | preparedA _ q p => exact (prepare_lastPulse p).imp_right fun ⟨up, le⟩ => ⟨up, .inl q, le⟩
  | preparedB _ q p => exact (prepare_lastPulse p).imp_right fun ⟨up, le⟩ => ⟨up, .inr q, le⟩
  | enteredA => exact .inl (enter_lastPulse s)
  | _ => exact .inl rfl

theorem sequencerStep_aPending (h : sequencerStep c s = .next t) :
    t.aPending = s.aPending ∨ t.aPending = false ∧ s.seq = .idle ∧ t.seq = .aStart1 := by
  cases sequencerStep_next h with
  | enteredA q a =>
    obtain ⟨_, -, -, -, e⟩ := enter_a a
    rw [e]
    exact .inr ⟨rfl, q, rfl⟩
  | preparedA _ _ p => exact .inl (prepare_aPending p :)
  | preparedB _ _ p => exact .inl (prepare_aPending p :)
  | _ => exact .inl rfl

theorem sequencerStep_bPending (h : sequencerStep c s = .next t) :
    t.bPending = s.bPending ∨ t.bPending = false ∧ s.seq = .idle ∧ t.seq = .bRun := by
  cases sequencerStep_next h with
  | enteredB q => exact .inr ⟨rfl, q, rfl⟩
  | enteredA _ a =>
    obtain ⟨_, -, -, -, e⟩ := enter_a a
    rw [e]
    exact .inl rfl
  | preparedA _ _ p => exact .inl (prepare_bPending p :)
  | preparedB _ _ p => exact .inl (prepare_bPending p :)
  | _ => exact .inl rfl

end Sequencer

/-! ### The foreground's step -/

section Foreground

variable {c : Config} {s t : State}

/-- R257: the foreground is enabled exactly in the quiet states. -/
theorem foregroundEnabled_iff_quiet (s : State) : foregroundEnabled s = true ↔ Quiet s :=
  foregroundEnabled_iff s

theorem foregroundStep_of_quiet (c : Config) (q : Quiet s) : foregroundStep c s = foregroundLoop c s :=
  if_pos ((foregroundEnabled_iff_quiet s).mpr q)

theorem foregroundStep_at_checkNewCycle (c : Config) (q : Quiet s) (p : s.fg = .checkNewCycle) :
    foregroundStep c s = .next (checkNewCycle s) := by
  rw [foregroundStep_of_quiet c q, foregroundLoop, p]

theorem foregroundStep_at_checkLastPulse (c : Config) (q : Quiet s) (p : s.fg = .checkLastPulse) :
    foregroundStep c s = .next (checkLastPulse c s) := by
  rw [foregroundStep_of_quiet c q, foregroundLoop, p]

theorem foregroundStep_newCycle (h : foregroundStep c s = .next t) :
    t.newCycle = s.newCycle ∨ t.newCycle = false ∧ Quiet s ∧ s.fg = .checkNewCycle := by
  cases foregroundStep_next h with
  | faded e p => exact .inr ⟨rfl, (foregroundEnabled_iff_quiet s).mp e, p⟩
  | ran _ _ _ _ _ _ _ _ _ w => exact .inl (w ▸ rfl)
  | _ => exact .inl rfl

theorem foregroundStep_lastPulse (h : foregroundStep c s = .next t) :
    t.lastPulse = s.lastPulse ∨ t.lastPulse = false ∧ Quiet s ∧ s.fg = .checkLastPulse := by
  cases foregroundStep_next h with
  | rebuilt e p => exact .inr ⟨rfl, (foregroundEnabled_iff_quiet s).mp e, p⟩
  | ran _ _ _ _ _ _ _ _ _ w => exact .inl (w ▸ rfl)
  | _ => exact .inl rfl

theorem foregroundStep_aPending (h : foregroundStep c s = .next t) : t.aPending = s.aPending := by
  cases foregroundStep_next h with
  | ran _ _ _ _ _ _ _ _ _ w => exact w ▸ rfl
  | _ => rfl

theorem foregroundStep_bPending (h : foregroundStep c s = .next t) : t.bPending = s.bPending := by
  cases foregroundStep_next h with
  | ran _ _ _ _ _ _ _ _ _ w => exact w ▸ rfl
  | _ => rfl

end Foreground

/-! ### Every agent's move -/

/-- How a move leaves a status bit: as it was, set where `sets` holds, or cleared where `clears` holds. -/
def BitWritten (old new : Bool) (sets clears : Prop) : Prop :=
  new = old ∨ (new = true ∧ sets) ∨ (new = false ∧ clears)

/-- A bit that rose was set, and a bit that fell was cleared. -/
theorem BitWritten.changes {old new : Bool} {sets clears : Prop} (w : BitWritten old new sets clears) :
    (old = false → new = true → sets) ∧ (old = true → new = false → clears) := by
  obtain rfl | ⟨rfl, h⟩ | ⟨rfl, h⟩ := w
  · constructor <;> simp_all
  · simp [h]
  · simp [h]

/-- A latch that takes the OR of its old value and a test rises only where the test is true. -/
theorem BitWritten.of_or_decide {old new : Bool} {test sets clears : Prop} [Decidable test]
    (e : new = (old || decide test)) (h : test → sets) : BitWritten old new sets clears := by
  by_cases ht : test
  · exact .inr (.inl ⟨by simp [e, ht], h ht⟩)
  · exact .inl (by simp [e, ht])

section Moves

variable {c : Config} {m : Move} {s t : State}

theorem moveStep_newCycle (h : moveStep c m s = .next t) :
    BitWritten s.newCycle t.newCycle (m = .sequencer ∧ s.seq = .aStart1 ∧ s.nextBitmask = 0)
      (m = .foreground ∧ Quiet s ∧ s.fg = .checkNewCycle) := by
  cases m with
  | tick => cases h; exact .inl (tick_newCycle c s)
  | sequencer => exact (sequencerStep_newCycle h).imp_right fun ⟨up, w⟩ => .inl ⟨up, rfl, w⟩
  | foreground => exact (foregroundStep_newCycle h).imp_right fun ⟨down, w⟩ => .inr ⟨down, rfl, w⟩
  | hostSend b => cases h; exact .inl rfl
  | hostTake => cases h; exact .inl rfl

theorem moveStep_lastPulse (h : moveStep c m s = .next t) :
    BitWritten s.lastPulse t.lastPulse (m = .sequencer ∧ (s.seq = .aPrep ∨ s.seq = .bRun) ∧ s.count ≤ s.index)
      (m = .foreground ∧ Quiet s ∧ s.fg = .checkLastPulse) := by
  cases m with
  | tick => cases h; exact .inl (tick_lastPulse c s)
  | sequencer => exact (sequencerStep_lastPulse h).imp_right fun ⟨up, w⟩ => .inl ⟨up, rfl, w⟩
  | foreground => exact (foregroundStep_lastPulse h).imp_right fun ⟨down, w⟩ => .inr ⟨down, rfl, w⟩
  | hostSend b => cases h; exact .inl rfl
  | hostTake => cases h; exact .inl rfl

theorem moveStep_aPending (h : moveStep c m s = .next t) :
    BitWritten s.aPending t.aPending (m = .tick ∧ s.tcnt = c.aTop)
      (m = .sequencer ∧ s.seq = .idle ∧ t.seq = .aStart1) := by
  cases m with
  | tick => cases h; exact .of_or_decide (tick_aPending c s) fun top => ⟨rfl, top⟩
  | sequencer => exact (sequencerStep_aPending h).imp_right fun ⟨down, w⟩ => .inr ⟨down, rfl, w⟩
  | foreground => exact .inl (foregroundStep_aPending h)
  | hostSend b => cases h; exact .inl rfl
  | hostTake => cases h; exact .inl rfl

theorem moveStep_bPending (h : moveStep c m s = .next t) :
    BitWritten s.bPending t.bPending (m = .tick ∧ t.tcnt = s.ocrb)
      (m = .sequencer ∧ s.seq = .idle ∧ t.seq = .bRun) := by
  cases m with
  | tick => cases h; exact .of_or_decide (tick_bPending c s) fun hit => ⟨rfl, hit⟩
  | sequencer => exact (sequencerStep_bPending h).imp_right fun ⟨down, w⟩ => .inr ⟨down, rfl, w⟩
  | foreground => exact .inl (foregroundStep_bPending h)
  | hostSend b => cases h; exact .inl rfl
  | hostTake => cases h; exact .inl rfl

end Moves

/-! ### The obligations -/

/-- Settles O46: each agent's move by its own lemma, and the foreground's `TestAndClear` leaves 0. -/
theorem newCycleWriters : Obligations.NewCycleWriters := by
  refine ⟨rfl, fun c m s t h => ?_⟩
  obtain ⟨rises, falls⟩ := (moveStep_newCycle h).changes
  refine ⟨rises, falls, ?_⟩
  rintro rfl quiet position
  rw [moveStep, foregroundStep_at_checkNewCycle c quiet position] at h
  cases h
  exact checkNewCycle_newCycle s

/-- Settles O47: each agent's move by its own lemma, and the foreground's `TestAndClear` leaves 0. -/
theorem lastPulseWriters : Obligations.LastPulseWriters := by
  refine ⟨rfl, fun c m s t h => ?_⟩
  obtain ⟨rises, falls⟩ := (moveStep_lastPulse h).changes
  refine ⟨rises, falls, ?_⟩
  rintro rfl quiet position
  rw [moveStep, foregroundStep_at_checkLastPulse c quiet position] at h
  cases h
  exact checkLastPulse_lastPulse c s

/-- Settles O48: a latch is written by the tick and by entry of its own handler, and by no other move. -/
theorem latchWriters : Obligations.LatchWriters := by
  refine ⟨rfl, rfl, fun c m s t h => ?_⟩
  obtain ⟨riseA, fallA⟩ := (moveStep_aPending h).changes
  obtain ⟨riseB, fallB⟩ := (moveStep_bPending h).changes
  exact ⟨riseA, fallA, riseB, fallB⟩

end Sys2Proof.Proofs
end

