-- ==== Sys2Proof/Proofs/OpcodeMap.lean ====
section
/-! PROOFS. The opcode map (30_encoding.md R83). -/

namespace Sys2Proof.Proofs

open Sys2Proof.Laws

/-- Settles O1: the named bytes are the rows of `opcodeMap`, and the listed bytes are `commandBytes`. -/
theorem opcodeMapDecodes : Obligations.OpcodeMapDecodes := by
  have rows := decodeByte_row
  simp only [opcodeMap, List.forall_mem_cons] at rows
  obtain ⟨allZero, dec0, dec1, dec2, inc0, inc1, inc2, hold, halve, double, speed, bright, -⟩ := rows
  exact ⟨allZero, dec0, dec1, dec2, inc0, inc1, inc2, hold, halve, double, speed, bright, fun _ => decodeByte_other⟩

end Sys2Proof.Proofs
end

