-- ==== Sys2Proof/Proofs/InitialBitmask.lean ====
section
/-! PROOFS. The initial port value of a rebuild, bit by bit (40_gamma_scheduler.md R110 step 4, R117). -/

namespace Sys2Proof.Proofs

open Sys2Proof.Machine Sys2Proof.Laws

/-- A walk over `ks` that clears the masks of the channels where `lit` holds. -/
theorem getLsbD_foldl_clear (lit : Chan → Prop) [DecidablePred lit] (mask : Chan → Byte) (ks : List Chan) (ib : Byte)
    {i : Nat} (hi : i < 8) :
    (ks.foldl (fun ib k => if lit k then ib &&& ~~~mask k else ib) ib).getLsbD i =
      (ib.getLsbD i && !ks.any fun k => decide (lit k) && (mask k).getLsbD i) := by
  induction ks generalizing ib with
  | nil => simp
  | cons k ks ih =>
    rw [List.foldl_cons, ih]
    by_cases h : lit k
    · simp [h, hi, Bool.and_assoc]
    · simp [h]

/-- A bit of the initial port value is clear exactly where it is in the mask of a channel above 0 (R110 step 4). -/
theorem builtInitialMask_getLsbD (c : Config) (chs : Channels) {i : Nat} (hi : i < 8) :
    (builtInitialMask c chs).getLsbD i =
      !channelList.any fun k => decide (0 < brightnessOf chs k) && (c.chMask k).getLsbD i := by
  have allSet : (0xFF : Byte).getLsbD i = true := by interval_cases i <;> rfl
  rw [builtInitialMask, getLsbD_foldl_clear _ _ _ _ hi, allSet, Bool.true_and]
  rfl

/-- ANDing a byte with one bit tests that bit. -/
theorem and_twoPow_eq_zero_iff (b : Byte) {i : Nat} (hi : i < 8) :
    b &&& BitVec.twoPow 8 i = 0 ↔ b.getLsbD i = false := by
  have ne : BitVec.twoPow 8 i ≠ 0#8 := by interval_cases i <;> decide
  rw [BitVec.and_twoPow]
  cases b.getLsbD i <;> simp [ne]

/-- The position of a channel's one bit (R9 (a)). -/
theorem chMask_eq_twoPow {c : Config} (h : c.MasksAdmitted) (k : Chan) :
    ∃ i < 8, c.chMask k = BitVec.twoPow 8 i := by
  obtain ⟨⟨h0, h1, h2⟩, -⟩ := h
  cases k
  · exact h0
  · exact h1
  · exact h2

/-- A channel's bit is in no other channel's mask (R9 (a)). -/
theorem chMask_getLsbD_eq_decide {c : Config} (h : c.MasksAdmitted) {k : Chan} {i : Nat} (hi : i < 8)
    (bit : c.chMask k = BitVec.twoPow 8 i) (j : Chan) : (c.chMask j).getLsbD i = decide (j = k) := by
  by_cases e : j = k
  · simp [e, bit, hi]
  · rw [decide_eq_false e, ← and_twoPow_eq_zero_iff _ hi, ← bit]
    exact masks_disjoint h e

/-- The AND with one channel's mask depends on that channel alone. -/
theorem builtInitialMask_and_chMask_eq_zero_iff {c : Config} (h : c.MasksAdmitted) (chs : Channels) (k : Chan) :
    builtInitialMask c chs &&& c.chMask k = 0 ↔ 0 < brightnessOf chs k := by
  obtain ⟨i, hi, bit⟩ := chMask_eq_twoPow h k
  rw [bit, and_twoPow_eq_zero_iff _ hi, builtInitialMask_getLsbD c chs hi]
  simp only [chMask_getLsbD_eq_decide h hi bit]
  cases k <;> simp [channelList]

/-- Settles O24: a channel's bit by the disjoint one-bit masks, a bit of no mask by the bits of the walk. -/
theorem initialBitmaskBits : Obligations.InitialBitmaskBits := by
  intro c s masks
  refine ⟨builtInitialMask_and_chMask_eq_zero_iff masks s.ch, fun i hi outside => ?_⟩
  calc (rebuild c s).initialBitmask.getLsbD i
      = !channelList.any fun k => decide (0 < brightnessOf s.ch k) && (c.chMask k).getLsbD i :=
        builtInitialMask_getLsbD c s.ch hi
    _ = true := by simp [outside]

end Sys2Proof.Proofs
end

