-- ==== Sys2Proof/Proofs/FadeStep.lean ====
section
/-! PROOFS. One fade step of one channel in exact arithmetic (41_fade.md R131, R132): the byte tests of R41 as tests on the
unwrapped natural number `fixedPoint x ± speed`, then the new fixed-point value. -/

namespace Sys2Proof.Proofs

open Sys2Proof.Machine Sys2Proof.Laws Sys2Proof.Claims

/-! ### The fixed-point value -/

theorem join_toNat_eq_fixedPoint (x : Channel) : (join x.brightness x.remainder).toNat = fixedPoint x :=
  join_toNat x.brightness x.remainder

theorem fixedPoint_lt (x : Channel) : fixedPoint x < 65536 := by
  rw [← join_toNat_eq_fixedPoint]
  exact (join x.brightness x.remainder).isLt

/-- Splitting an accepted value into brightness and remainder loses nothing (R131). -/
@[simp] theorem fixedPoint_acceptFade (x : Channel) (v : Word) : fixedPoint (acceptFade x v) = v.toNat := by
  calc fixedPoint (acceptFade x v) = 256 * (high v).toNat + (low v).toNat := rfl
    _ = 256 * (v.toNat / 256) + v.toNat % 256 := by rw [high_toNat, low_toNat]
    _ = v.toNat := Nat.div_add_mod v.toNat 256

/-! ### The 16-bit sum and difference: exact, or off by one wrap -/

/-- `old +16 s` (R131). -/
theorem fadeSum_toNat (x : Channel) :
    (join x.brightness x.remainder + x.speed).toNat = (fixedPoint x + x.speed.toNat) % 65536 := by
  rw [BitVec.toNat_add, join_toNat_eq_fixedPoint]

/-- `old -16 s` (R131). -/
theorem fadeDifference_toNat (x : Channel) :
    (join x.brightness x.remainder - x.speed).toNat = (fixedPoint x + 65536 - x.speed.toNat) % 65536 := by
  rw [BitVec.toNat_sub, join_toNat_eq_fixedPoint]
  have := x.speed.isLt
  omega

/-! ### The byte tests on unwrapped values -/

/-- Fading up, the byte test accepts below the end of the target's byte, and again where the sum has wrapped so far that
its high byte is back at the old brightness (R134). -/
theorem fadeUp_accepts_iff {x : Channel} (up : x.brightness < x.target) :
    x.brightness ≤ high (join x.brightness x.remainder + x.speed) ∧
        high (join x.brightness x.remainder + x.speed) ≤ x.target ↔
      fixedPoint x + x.speed.toNat < 256 * (x.target.toNat + 1) ∨
        65536 + 256 * x.brightness.toNat ≤ fixedPoint x + x.speed.toNat := by
  rw [BitVec.lt_def] at up
  rw [BitVec.le_def, BitVec.le_def, high_toNat, fadeSum_toNat]
  have hv : fixedPoint x = 256 * x.brightness.toNat + x.remainder.toNat := rfl
  have hr : x.remainder.toNat < 256 := x.remainder.isLt
  have ht : x.target.toNat < 256 := x.target.isLt
  have hs : x.speed.toNat < 65536 := x.speed.isLt
  omega

/-- Fading down, the byte test accepts down to the start of the target's byte, and again where the difference has wrapped so
far that its high byte is back at the old brightness (R134). -/
theorem fadeDown_accepts_iff {x : Channel} (down : x.target < x.brightness) :
    x.target ≤ high (join x.brightness x.remainder - x.speed) ∧
        high (join x.brightness x.remainder - x.speed) ≤ x.brightness ↔
      256 * x.target.toNat + x.speed.toNat ≤ fixedPoint x ∨ 65281 + x.remainder.toNat ≤ x.speed.toNat := by
  rw [BitVec.lt_def] at down
  rw [BitVec.le_def, BitVec.le_def, high_toNat, fadeDifference_toNat]
  have hv : fixedPoint x = 256 * x.brightness.toNat + x.remainder.toNat := rfl
  have hr : x.remainder.toNat < 256 := x.remainder.isLt
  have hb : x.brightness.toNat < 256 := x.brightness.isLt
  have hs : x.speed.toNat < 65536 := x.speed.isLt
  omega

/-! ### The step in each direction -/

/-- A step up either keeps the 16-bit sum or clamps, by the unwrapped test. -/
theorem fadeChannel_up (d : Byte) {x : Channel} (up : x.brightness < x.target) :
    fadeChannel d x =
      if fixedPoint x + x.speed.toNat < 256 * (x.target.toNat + 1) ∨
          65536 + 256 * x.brightness.toNat ≤ fixedPoint x + x.speed.toNat
      then acceptFade x (join x.brightness x.remainder + x.speed) else clampFade x d := by
  rw [← if_congr (fadeUp_accepts_iff up) rfl rfl]
  obtain ⟨-, ⟨out, e⟩ | ⟨within, e⟩⟩ | ⟨down, -⟩ | ⟨same, -⟩ := fadeChannel_cases d x
  · rw [e, if_neg]
    rwa [not_and_or, BitVec.not_le, BitVec.not_le]
  · rw [e, if_pos within]
  · exact absurd down (BitVec.lt_asymm up)
  · exact absurd same (BitVec.ne_of_lt up)

/-- A step down either keeps the 16-bit difference or clamps, by the unwrapped test. -/
theorem fadeChannel_down (d : Byte) {x : Channel} (down : x.target < x.brightness) :
    fadeChannel d x =
      if 256 * x.target.toNat + x.speed.toNat ≤ fixedPoint x ∨ 65281 + x.remainder.toNat ≤ x.speed.toNat
      then acceptFade x (join x.brightness x.remainder - x.speed) else clampFade x d := by
  rw [← if_congr (fadeDown_accepts_iff down) rfl rfl]
  obtain ⟨up, -⟩ | ⟨-, ⟨out, e⟩ | ⟨within, e⟩⟩ | ⟨same, -⟩ := fadeChannel_cases d x
  · exact absurd up (BitVec.lt_asymm down)
  · rw [e, if_neg]
    rwa [not_and_or, BitVec.not_le, BitVec.not_le, or_comm]
  · rw [e, if_pos within]
  · exact absurd same.symm (BitVec.ne_of_lt down)

/-- At the target nothing moves (R132). -/
theorem fadeChannel_of_brightness_eq_target (d : Byte) {x : Channel} (same : x.brightness = x.target) :
    fadeChannel d x = x := by
  obtain ⟨up, -⟩ | ⟨down, -⟩ | ⟨-, e⟩ := fadeChannel_cases d x
  · exact absurd same (BitVec.ne_of_lt up)
  · exact absurd same.symm (BitVec.ne_of_lt down)
  · exact e

/-! ### The obligation -/

/-- Settles O18: in each direction the unwrapped test picks the branch, and the accepted 16-bit value is the exact one up to
one wrap. -/
theorem fadeStepExact : Obligations.FadeStepExact := by
  intro d x
  have hv : fixedPoint x < 65536 := fixedPoint_lt x
  have hs : x.speed.toNat < 65536 := x.speed.isLt
  have ht : x.target.toNat < 256 := x.target.isLt
  refine ⟨fadeChannel_target d x, fadeChannel_speed d x, fun up => ⟨fun below => ?_, fun past unwrapped => ?_,
    fun wrapped => ?_⟩, fun down => ⟨fun above => ?_, fun past unwrapped => ?_, fun wrapped => ?_⟩,
    fadeChannel_of_brightness_eq_target d⟩
  · rw [fadeChannel_up d up, if_pos (.inl below), fixedPoint_acceptFade, fadeSum_toNat]
    omega
  · rw [fadeChannel_up d up, if_neg (by omega)]
    exact ⟨rfl, rfl⟩
  · rw [fadeChannel_up d up, if_pos (.inr wrapped), fixedPoint_acceptFade, fadeSum_toNat]
    omega
  · rw [fadeChannel_down d down, if_pos (.inl above), fixedPoint_acceptFade, fadeDifference_toNat]
    omega
  · rw [fadeChannel_down d down, if_neg (by omega)]
    exact ⟨rfl, rfl⟩
  · have short : fixedPoint x < x.speed.toNat := by
      have hx : fixedPoint x = 256 * x.brightness.toNat + x.remainder.toNat := rfl
      have hb : x.brightness.toNat < 256 := x.brightness.isLt
      omega
    rw [fadeChannel_down d down, if_pos (.inr wrapped), fixedPoint_acceptFade, fadeDifference_toNat]
    omega

end Sys2Proof.Proofs
end

