-- ==== Sys2Proof/Proofs/SequencerSteps.lean ====
section
/-! PROOFS. The sequencer's micro-steps as equations (42_sequencer.md R152, R159), and who writes the port (R163). -/

namespace Sys2Proof.Proofs

open Sys2Proof.Machine Sys2Proof.Laws

/-! ### Slot preparation -/

section Prepare

variable {s : State}

/-- The branch of the exhausted schedule (R159). -/
theorem prepare_of_count_le_index (c : Config) (exhausted : s.count ≤ s.index) :
    prepare c s = .next { s with index := 0, lastPulse := true, ocrb := c.bOff } := by
  obtain ⟨-, e⟩ | ⟨more, -⟩ | ⟨more, -⟩ := prepare_cases c s
  · exact e
  · exact absurd more (BitVec.not_lt.mpr exhausted)
  · exact absurd more (BitVec.not_lt.mpr exhausted)

/-- The branch that stages the slot under the cursor (R159). -/
theorem prepare_of_index_lt_count (c : Config) {sl : Slot} (more : s.index < s.count) (slot : currentSlot s = some sl) :
    prepare c s = .next { s with ocrb := sl.top, nextBitmask := sl.mask, index := s.index + 1 } := by
  obtain ⟨exhausted, -⟩ | ⟨-, sl', slot', e⟩ | ⟨-, absent, -⟩ := prepare_cases c s
  · exact absurd more (BitVec.not_lt.mpr exhausted)
  · obtain rfl : sl = sl' := Option.some.inj (slot.symm.trans slot')
    exact e
  · exact absurd (slot.symm.trans absent) (Option.some_ne_none sl)

/-- A cursor below `count` does not wrap when it advances. -/
theorem index_succ_toNat (more : s.index < s.count) : (s.index + 1).toNat = s.index.toNat + 1 := by
  rw [BitVec.lt_def] at more
  have bound : s.count.toNat < 256 := s.count.isLt
  have sum : (s.index + 1).toNat = (s.index.toNat + 1) % 256 := BitVec.toNat_add s.index 1
  omega

end Prepare

/-- Settles O29: one branch lemma each, and the advanced cursor does not wrap because it was below `count`. -/
theorem prepareBranches : Obligations.PrepareBranches := by
  intro c s
  refine ⟨prepare_of_count_le_index c, fun sl more slot => ?_⟩
  exact ⟨_, prepare_of_index_lt_count c more slot, index_succ_toNat more, rfl⟩

/-! ### The A handler -/

section AHandler

variable {s : State} {sl : Slot}

theorem sequencerStep_at_aStart1_sentinel (c : Config) (position : s.seq = .aStart1) (sentinel : s.nextBitmask = 0) :
    sequencerStep c s = .next { s with port := s.initialBitmask, newCycle := true, seq := .aSpin } := by
  simp only [sequencerStep, position]
  exact if_pos sentinel

theorem sequencerStep_at_aStart1_staged (c : Config) (position : s.seq = .aStart1) (staged : s.nextBitmask ≠ 0) :
    sequencerStep c s = .next { s with seq := .aPrep } := by
  simp only [sequencerStep, position]
  exact if_neg staged

/-- `A_Spin` turns on the spin test alone (R152). -/
theorem sequencerStep_at_aSpin (c : Config) (position : s.seq = .aSpin) (slot : currentSlot s = some sl) :
    sequencerStep c s = .next { s with seq := if spinTest c s.tcnt sl.top then .aSpinWait else .aPrep } := by
  simp only [sequencerStep, position, aSpin, slot]
  rfl

theorem spinTest_eq_true_iff (c : Config) (tcnt top : Word) :
    spinTest c tcnt top = true ↔ top.toNat < tcnt.toNat + c.guard.toNat :=
  decide_eq_true_iff

theorem sequencerStep_at_aSpin_near (c : Config) (position : s.seq = .aSpin) (slot : currentSlot s = some sl)
    (near : sl.top.toNat < s.tcnt.toNat + c.guard.toNat) : sequencerStep c s = .next { s with seq := .aSpinWait } := by
  rw [sequencerStep_at_aSpin c position slot, if_pos ((spinTest_eq_true_iff _ _ _).mpr near)]

theorem sequencerStep_at_aSpin_far (c : Config) (position : s.seq = .aSpin) (slot : currentSlot s = some sl)
    (far : s.tcnt.toNat + c.guard.toNat ≤ sl.top.toNat) : sequencerStep c s = .next { s with seq := .aPrep } := by
  rw [sequencerStep_at_aSpin c position slot, if_neg (mt (spinTest_eq_true_iff _ _ _).mp (Nat.not_lt.mpr far))]

theorem sequencerStep_at_aSpinWait_due (c : Config) (position : s.seq = .aSpinWait) (slot : currentSlot s = some sl)
    (due : sl.top ≤ s.tcnt) :
    sequencerStep c s = .next { s with port := s.port ||| sl.mask, index := s.index + 1, seq := .aSpin } := by
  simp only [sequencerStep, position, aSpinWait, slot]
  exact if_pos due

theorem sequencerStep_at_aSpinWait_early (c : Config) (position : s.seq = .aSpinWait) (slot : currentSlot s = some sl)
    (early : s.tcnt < sl.top) : sequencerStep c s = .next s := by
  simp only [sequencerStep, position, aSpinWait, slot]
  exact if_neg (BitVec.not_le.mpr early)

theorem sequencerStep_at_aPrep (c : Config) (position : s.seq = .aPrep) :
    sequencerStep c s = prepare c { s with seq := .idle } := by
  simp only [sequencerStep, position]
  rfl

end AHandler

/-- Settles O28: the equation of each micro-step, on each side of its test. -/
theorem aHandlerMicroSteps : Obligations.AHandlerMicroSteps := by
  intro c s
  refine ⟨sequencerStep_at_aStart1_sentinel c, sequencerStep_at_aStart1_staged c, fun sl position slot => ?_,
    fun sl position slot => ?_, sequencerStep_at_aPrep c⟩
  · exact ⟨sequencerStep_at_aSpin_near c position slot, sequencerStep_at_aSpin_far c position slot⟩
  · exact ⟨sequencerStep_at_aSpinWait_due c position slot, sequencerStep_at_aSpinWait_early c position slot⟩

/-! ### The port -/

@[simp] theorem tick_port (c : Config) (s : State) : (tick c s).port = s.port := by
  obtain ⟨-, e⟩ | ⟨-, e⟩ := tick_cases c s <;> rw [e]

section Port

variable {c : Config} {m : Move} {s t : State}

theorem prepare_port (h : prepare c s = .next t) : t.port = s.port := by
  obtain ⟨-, rfl⟩ | ⟨-, sl, -, rfl⟩ := prepare_next h <;> rfl

theorem enter_port (s : State) : (enter s).port = s.port := by
  cases h : s.aPending <;> simp [enter, checkRebuildLate, h]

theorem foregroundStep_port (h : foregroundStep c s = .next t) : t.port = s.port := by
  cases foregroundStep_next h with
  | ran _ _ _ _ _ _ _ _ _ w => exact w ▸ rfl
  | _ => rfl

/-- The B handler's OR is of `next_bitmask`, or of nothing where the marker is staged (R157, R158). -/
theorem port_or_stagedMask (c : Config) (s : State) :
    s.port ||| stagedMask c s = s.port ∨ s.port ||| stagedMask c s = s.port ||| s.nextBitmask := by
  obtain ⟨-, -, e⟩ | ⟨-, e⟩ := stagedMask_cases c s
  · exact .inl (by simp [e])
  · exact .inr (by rw [e])

/-- The one full write and the two ORs of the handlers (R163). -/
theorem sequencerStep_port (h : sequencerStep c s = .next t) :
    t.port = s.port ∨
      (s.seq = .aStart1 ∧ s.nextBitmask = 0 ∧ t.port = s.initialBitmask) ∨
      (s.seq = .aSpinWait ∧ ∃ sl, currentSlot s = some sl ∧ t.port = s.port ||| sl.mask) ∨
      (s.seq = .bRun ∧ t.port = s.port ||| s.nextBitmask) := by
  cases sequencerStep_next h with
  | startedCycle q z => exact .inr (.inl ⟨q, z, rfl⟩)
  | spunSlot sl q slot => exact .inr (.inr (.inl ⟨q, sl, slot, rfl⟩))
  | preparedB _ q p =>
    have written : t.port = s.port ||| stagedMask c s := prepare_port p
    rw [written]
    exact (port_or_stagedMask c s).imp_right fun e => .inr (.inr ⟨q, e⟩)
  | preparedA _ _ p => exact .inl (prepare_port p :)
  | enteredA => exact .inl (enter_port s)
  | _ => exact .inl rfl

theorem moveStep_port_of_ne_sequencer (h : moveStep c m s = .next t) (other : m ≠ .sequencer) : t.port = s.port := by
  cases m with
  | sequencer => exact absurd rfl other
  | tick => cases h; exact tick_port c s
  | foreground => exact foregroundStep_port h
  | hostSend b => cases h; rfl
  | hostTake => cases h; rfl

end Port

/-- Settles O36: the other agents leave the port, and the sequencer's writes are those of its micro-steps. -/
theorem portWrittenOnlyByHandlers : Obligations.PortWrittenOnlyByHandlers := by
  intro c m s t h
  refine ⟨moveStep_port_of_ne_sequencer h, ?_⟩
  by_cases own : m = .sequencer
  · subst own
    exact sequencerStep_port h
  · exact .inl (moveStep_port_of_ne_sequencer h own)

end Sys2Proof.Proofs
end

