-- ==== Sys2Proof/Proofs/Commands.lean ====
section
/-! PROOFS. The commands one by one (43_commands.md R190-R202): for each kind of rewrite, that it gives the stated values and
leaves the rest; then each command is its row of the opcode map, the rewrite it makes, and the arithmetic of that. -/

namespace Sys2Proof.Proofs

open Sys2Proof.Machine Sys2Proof.Laws Sys2Proof.Claims

/-- A row's byte in front of any bytes reads as the row's command (R80, R83). -/
theorem decode_opcodeMap_row {op : Byte} {i : Instr} (row : ⟨op, i⟩ ∈ opcodeMap) (rest : List Byte) :
    decode (op :: rest) = .ok (i, rest) := by
  have byte : decodeByte op = i := decodeByte_row _ row
  rw [decode_cons, byte]

/-! ### Rewrites of the channels -/

section Rewrites

variable {i : Instr} {op : Byte}

theorem adjustsTarget_of_exec_eq {k : Chan} {f : Byte → Byte} {next : Nat → Nat} (row : ⟨op, i⟩ ∈ opcodeMap)
    (meaning : ∀ s, exec i s = .next (setTarget k (f (s.ch.get k).target) s))
    (arithmetic : ∀ b, (f b).toNat = next b.toNat) : AdjustsTarget i op k next := by
  refine ⟨decode_opcodeMap_row row, fun s => ⟨_, meaning s, ?_, ?_⟩⟩
  · rw [setTarget_ch, get_set_self]
    exact arithmetic _
  · rw [setTarget_ch, get_set_self]
    rfl

/-- A rule that does not read the target gives the same targets again. -/
theorem mapTargets_mapTargets {value : Channel → Byte} (blind : ∀ x v, value { x with target := v } = value x) (s : State) :
    mapTargets value (mapTargets value s) = mapTargets value s := by
  simp [mapTargets, Channels.map, blind]

theorem rewritesTargets_of_exec_eq {value : Channel → Byte} (row : ⟨op, i⟩ ∈ opcodeMap)
    (meaning : ∀ s, exec i s = .next (mapTargets value s))
    (blind : ∀ x v, value { x with target := v } = value x) : RewritesTargets i op value := by
  refine ⟨decode_opcodeMap_row row, fun s => ⟨_, meaning s, ?_, fun k => ?_, rfl⟩⟩
  · rw [meaning, mapTargets_mapTargets blind]
  · rw [mapTargets_ch, get_map]
    exact ⟨rfl, rfl⟩

theorem rewritesSpeeds_of_exec_eq {f : Word → Word} {value : Nat → Nat} (row : ⟨op, i⟩ ∈ opcodeMap)
    (meaning : ∀ s, exec i s = .next (mapSpeeds f s))
    (arithmetic : ∀ v, (f v).toNat = value v.toNat) : RewritesSpeeds i op value := by
  refine ⟨decode_opcodeMap_row row, fun s => ⟨_, meaning s, fun k => ?_, rfl⟩⟩
  rw [mapSpeeds_ch, get_map]
  exact ⟨arithmetic _, rfl⟩

end Rewrites

/-! ### The arithmetic of the targets and the speeds -/

theorem byte_sub_one_toNat (b : Byte) : (b - 1).toNat = (b.toNat + 255) % 256 := by
  rw [BitVec.toNat_sub, Nat.add_comm]
  rfl

theorem byte_add_one_toNat (b : Byte) : (b + 1).toNat = (b.toNat + 1) % 256 :=
  BitVec.toNat_add b 1

theorem word_shiftRight_one_toNat (v : Word) : (v >>> 1).toNat = v.toNat / 2 := by
  rw [BitVec.toNat_ushiftRight, Nat.shiftRight_one]

theorem word_shiftLeft_one_toNat (v : Word) : (v <<< 1).toNat = 2 * v.toNat % 65536 := by
  rw [BitVec.toNat_shiftLeft, Nat.shiftLeft_eq, Nat.mul_comm]

/-! ### The obligations -/

/-- Settles O7: each is its row, a write of one target, and the byte difference. -/
theorem targetDecrements : Obligations.TargetDecrements :=
  ⟨adjustsTarget_of_exec_eq (by decide) (fun _ => rfl) byte_sub_one_toNat,
    adjustsTarget_of_exec_eq (by decide) (fun _ => rfl) byte_sub_one_toNat,
    adjustsTarget_of_exec_eq (by decide) (fun _ => rfl) byte_sub_one_toNat⟩

/-- Settles O8: each is its row, a write of one target, and the byte sum. -/
theorem targetIncrements : Obligations.TargetIncrements :=
  ⟨adjustsTarget_of_exec_eq (by decide) (fun _ => rfl) byte_add_one_toNat,
    adjustsTarget_of_exec_eq (by decide) (fun _ => rfl) byte_add_one_toNat,
    adjustsTarget_of_exec_eq (by decide) (fun _ => rfl) byte_add_one_toNat⟩

/-- Settles O9: the constant does not read the target. -/
theorem targetsAllZero : Obligations.TargetsAllZero :=
  rewritesTargets_of_exec_eq (by decide) (fun _ => rfl) fun _ _ => rfl

/-- Settles O10: the brightness is not the target. -/
theorem targetsHold : Obligations.TargetsHold :=
  rewritesTargets_of_exec_eq (by decide) (fun _ => rfl) fun _ _ => rfl

/-- Settles O12: the logical shift right is the rounded-down half. -/
theorem speedHalves : Obligations.SpeedHalves :=
  rewritesSpeeds_of_exec_eq (by decide) (fun _ => rfl) word_shiftRight_one_toNat

/-- Settles O13: the 16-bit shift left is the double modulo 65536. -/
theorem speedDoubles : Obligations.SpeedDoubles :=
  rewritesSpeeds_of_exec_eq (by decide) (fun _ => rfl) word_shiftLeft_one_toNat

/-- Settles O14: the two bytes are `high` and `low` of the speed (R10, R63). -/
theorem reportsSpeed : Obligations.ReportsSpeed :=
  ⟨decode_opcodeMap_row (by decide), fun _ => ⟨_, _, high_toNat _, low_toNat _, rfl⟩⟩

/-- Settles O15: the three bytes written out are the brightnesses over `channelList`. -/
theorem reportsBrightness : Obligations.ReportsBrightness :=
  ⟨decode_opcodeMap_row (by decide), fun _ => rfl⟩

/-- Settles O16: a byte of no row decodes as `IGNORE` (R83), whose meaning is the state itself. -/
theorem otherBytesIgnored : Obligations.OtherBytesIgnored := by
  intro op other
  refine ⟨fun rest => ?_, fun s => rfl⟩
  rw [decode_cons, decodeByte_other other]

end Sys2Proof.Proofs
end

