-- ==== Sys2Proof/Proofs/ForegroundSteps.lean ====
section
/-! PROOFS. The foreground's step at each position as an equation (44_foreground.md R231-R233), and what no foreground step
writes (R235). -/

namespace Sys2Proof.Proofs

open Sys2Proof.Machine Sys2Proof.Laws Sys2Proof.Claims

/-! ### The step at `Dispatch` -/

/-- Every command completes, and rewrites only the channels and the end of `TX` (R203). -/
theorem exec_eq_next (i : Instr) (s : State) :
    ∃ chs bs, exec i s = .next { s with ch := chs, tx := s.tx ++ bs } := by
  have completes : ∃ t, exec i s = .next t := by
    obtain ⟨_, _, e⟩ | ⟨_, e⟩ | ⟨_, e⟩ | ⟨_, e⟩ | e := exec_cases i s <;> exact ⟨_, e⟩
  obtain ⟨t, e⟩ := completes
  obtain ⟨chs, bs, rfl⟩ := exec_next e
  exact ⟨chs, bs, e⟩

section Dispatch

variable {s : State}

theorem foregroundStep_at_dispatch (c : Config) (q : Quiet s) (p : s.fg = .dispatch) :
    foregroundStep c s = dispatch s := by
  rw [foregroundStep_of_quiet c q, foregroundLoop, p]

theorem dispatch_of_rx_cons {op : Byte} {rest : List Byte} (queue : s.rx = op :: rest) :
    dispatch s = exec (decodeByte op) { s with rx := rest, fg := .checkNewCycle } := by
  have read : decode s.rx = .ok (decodeByte op, rest) := by rw [queue, decode_cons]
  rw [dispatch, read]
  rfl

theorem dispatch_of_rx_nil (queue : s.rx = []) : dispatch s = .next { s with fg := .checkNewCycle } := by
  have read : decode s.rx = .error .noByte := by rw [queue, decode_nil]
  rw [dispatch, read]
  rfl

end Dispatch

/-- Settles O5: at `Dispatch` the step is `dispatch`, which decodes the head of `RX`, and every command completes. -/
theorem dispatchStep : Obligations.DispatchStep := by
  intro c s quiet position
  rw [foregroundStep_at_dispatch c quiet position]
  refine ⟨fun op rest queue => ?_, dispatch_of_rx_nil⟩
  rw [dispatch_of_rx_cons queue]
  obtain ⟨chs, bs, e⟩ := exec_eq_next (decodeByte op) { s with rx := rest, fg := .checkNewCycle }
  exact ⟨rfl, _, e, rfl, rfl⟩

/-! ### The step at `CheckNewCycle` -/

section CheckNewCycle

variable {s : State}

/-- With the flag up, the three channels fade with three draws in a row (R130, R231). -/
theorem checkNewCycle_of_newCycle (up : s.newCycle = true) :
    checkNewCycle s = { s with
      newCycle := false, fg := .checkLastPulse, draws := s.draws + 3
      ch := ⟨fadeChannel (Config.freeByte s.draws) s.ch.c0, fadeChannel (Config.freeByte (s.draws + 1)) s.ch.c1,
        fadeChannel (Config.freeByte (s.draws + 2)) s.ch.c2⟩ } := by
  rw [checkNewCycle, if_pos up]
  rfl

theorem checkNewCycle_of_not_newCycle (down : s.newCycle = false) :
    checkNewCycle s = { s with fg := .checkLastPulse } := by
  rw [checkNewCycle, if_neg (Bool.eq_false_iff.mp down)]
  rfl

end CheckNewCycle

/-- Settles O37: the draws are the next three free bytes. -/
theorem checkNewCycleStep : Obligations.CheckNewCycleStep := by
  intro c s quiet position
  rw [foregroundStep_at_checkNewCycle c quiet position]
  refine ⟨fun up => ?_, fun down => ?_⟩
  · rw [checkNewCycle_of_newCycle up]
    exact ⟨_, _, _, _, rfl⟩
  · rw [checkNewCycle_of_not_newCycle down]

/-! ### The step at `CheckLastPulse` -/

section CheckLastPulse

variable {s : State}

/-- With the flag up, the rebuild of the cleared state is the rebuild of the state, cleared (R232). -/
theorem checkLastPulse_of_lastPulse (c : Config) (up : s.lastPulse = true) :
    checkLastPulse c s =
      { rebuild c s with lastPulse := false, fg := .dispatch, tx := s.tx ++ [(rebuild c s).count] } := by
  rw [checkLastPulse, if_pos up]
  rfl

theorem checkLastPulse_of_not_lastPulse (c : Config) (down : s.lastPulse = false) :
    checkLastPulse c s = { s with fg := .dispatch } := by
  rw [checkLastPulse, if_neg (Bool.eq_false_iff.mp down)]
  rfl

end CheckLastPulse

/-- The marker is always built, and at most three channel slots stand beside it, so the `count` byte does not wrap. -/
theorem rebuild_count_bounds {c : Config} (admitted : c.Admitted) (level : 0 < c.midLevel) (mask : c.midMask ≠ 0)
    (s : State) : 1 ≤ (rebuild c s).count.toNat ∧ (rebuild c s).count.toNat ≤ 4 := by
  obtain ⟨-, hasMarker, le_four⟩ := builtSlots_legal c admitted level mask s.ch
  have pos : 0 < (builtSlots c s.ch).length := List.length_pos_of_mem hasMarker
  have exactCount : (rebuild c s).count.toNat = (builtSlots c s.ch).length :=
    Nat.mod_eq_of_lt (by omega)
  omega

/-- Settles O38: the machine's configuration is admitted, so the emitted count lies in 1 to 4. -/
theorem checkLastPulseStep : Obligations.CheckLastPulseStep := by
  intro s quiet position
  rw [foregroundStep_at_checkLastPulse chip quiet position]
  refine ⟨fun up => ?_, fun down => ?_⟩
  · obtain ⟨least, most⟩ := rebuild_count_bounds chip_admitted (by decide) (by decide) s
    rw [checkLastPulse_of_lastPulse chip up]
    exact ⟨_, rfl, least, most, rfl⟩
  · rw [checkLastPulse_of_not_lastPulse chip down]

/-! ### What no foreground step writes -/

section Frame

variable {c : Config} {s t : State}

theorem foregroundStep_ocrb (h : foregroundStep c s = .next t) : t.ocrb = s.ocrb := by
  cases foregroundStep_next h with
  | ran _ _ _ _ _ _ _ _ _ w => exact w ▸ rfl
  | _ => rfl

theorem foregroundStep_tcnt (h : foregroundStep c s = .next t) : t.tcnt = s.tcnt := by
  cases foregroundStep_next h with
  | ran _ _ _ _ _ _ _ _ _ w => exact w ▸ rfl
  | _ => rfl

/-- The schedule registers change only where `last_pulse` is answered, and then to what `REBUILD` writes (R235). -/
theorem foregroundStep_schedule (h : foregroundStep c s = .next t) :
    (t.slots = s.slots ∧ t.count = s.count ∧ t.index = s.index ∧ t.nextBitmask = s.nextBitmask ∧
        t.initialBitmask = s.initialBitmask) ∨
      (s.fg = .checkLastPulse ∧ s.lastPulse = true ∧ t.slots = (rebuild c s).slots ∧ t.count = (rebuild c s).count ∧
        t.index = 0 ∧ t.nextBitmask = 0 ∧ t.initialBitmask = (rebuild c s).initialBitmask) := by
  cases foregroundStep_next h with
  | rebuilt _ position up => exact .inr ⟨position, up, rfl, rfl, rfl, rfl, rfl⟩
  | ran _ _ _ _ _ _ _ _ _ w =>
    subst w
    exact .inl ⟨rfl, rfl, rfl, rfl, rfl⟩
  | _ => exact .inl ⟨rfl, rfl, rfl, rfl, rfl⟩

end Frame

/-- Settles O40: each register by its own frame lemma, the schedule by the one branch that rebuilds. -/
theorem foregroundNeverWritesPortOrTimer : Obligations.ForegroundNeverWritesPortOrTimer := by
  intro c s t h
  exact ⟨⟨foregroundStep_port h, foregroundStep_ocrb h, foregroundStep_tcnt h, foregroundStep_aPending h,
    foregroundStep_bPending h⟩, foregroundStep_schedule h⟩

end Sys2Proof.Proofs
end

