-- ==== Sys2Proof/Proofs/TimerTicks.lean ====
section
/-! PROOFS. The timer's tick, the count after `n` ticks, and the tick of each compare match (60_exceptions.md R250, R252). -/

namespace Sys2Proof.Proofs

open Sys2Proof.Machine Sys2Proof.Laws Sys2Proof.Claims

/-! ### One tick -/

@[simp] theorem tick_ocrb (c : Config) (s : State) : (tick c s).ocrb = s.ocrb := by
  obtain ⟨-, e⟩ | ⟨-, e⟩ := tick_cases c s <;> rw [e]

theorem tick_frame (c : Config) (s : State) :
    tick c s = { s with
      tcnt := (tick c s).tcnt, aPending := (tick c s).aPending, bPending := (tick c s).bPending } := by
  obtain ⟨-, e⟩ | ⟨-, e⟩ := tick_cases c s <;> rw [e]

theorem tick_tcnt_at_top {c : Config} {s : State} (top : s.tcnt = c.aTop) : (tick c s).tcnt = 0 := by
  obtain ⟨-, e⟩ | ⟨below, -⟩ := tick_cases c s
  · rw [e]; rfl
  · exact absurd top below

theorem tick_tcnt_below_top {c : Config} {s : State} (below : s.tcnt ≠ c.aTop) : (tick c s).tcnt = s.tcnt + 1 := by
  obtain ⟨top, -⟩ | ⟨-, e⟩ := tick_cases c s
  · exact absurd top below
  · rw [e]; rfl

theorem tick_aPending_at_top {c : Config} {s : State} (top : s.tcnt = c.aTop) : (tick c s).aPending = true := by
  simp [tick_aPending, top]

theorem tick_aPending_below_top {c : Config} {s : State} (below : s.tcnt ≠ c.aTop) :
    (tick c s).aPending = s.aPending := by
  simp [tick_aPending, below]

theorem tick_bPending_of_match {c : Config} {s : State} (hit : (tick c s).tcnt = s.ocrb) :
    (tick c s).bPending = true := by
  simp [tick_bPending, hit]

theorem tick_bPending_of_no_match {c : Config} {s : State} (miss : (tick c s).tcnt ≠ s.ocrb) :
    (tick c s).bPending = s.bPending := by
  simp [tick_bPending, miss]

/-- A count within the period goes round modulo `A_TOP + 1` (R250). -/
theorem tick_tcnt_toNat {c : Config} {s : State} (within : s.tcnt.toNat ≤ c.aTop.toNat) :
    (tick c s).tcnt.toNat = (s.tcnt.toNat + 1) % (c.aTop.toNat + 1) := by
  by_cases top : s.tcnt = c.aTop
  · rw [tick_tcnt_at_top top, top, Nat.mod_self]
    rfl
  · have below : s.tcnt.toNat ≠ c.aTop.toNat := mt BitVec.eq_of_toNat_eq top
    have width : c.aTop.toNat < 65536 := c.aTop.isLt
    have sum : (s.tcnt + 1).toNat = (s.tcnt.toNat + 1) % 65536 := BitVec.toNat_add s.tcnt 1
    rw [tick_tcnt_below_top top, sum, Nat.mod_eq_of_lt (by omega), Nat.mod_eq_of_lt (by omega)]

/-- The tick always moves the count, but for a period of one tick (R251). -/
theorem tick_tcnt_ne {c : Config} (s : State) (period : c.aTop ≠ 0) : (tick c s).tcnt ≠ s.tcnt := by
  by_cases top : s.tcnt = c.aTop
  · rw [tick_tcnt_at_top top, top]
    exact period.symm
  · rw [tick_tcnt_below_top top]
    bv_omega

/-! ### Many ticks -/

section Ticks

variable {c : Config} {s : State}

@[simp] theorem ticks_ocrb (c : Config) (n : Nat) (s : State) : (ticks c n s).ocrb = s.ocrb := by
  induction n with
  | zero => rfl
  | succ n ih => exact (tick_ocrb c (ticks c n s)).trans ih

/-- The counter runs 0, 1, ..., `A_TOP`, 0, ... (R250). -/
theorem ticks_tcnt_toNat (within : s.tcnt.toNat ≤ c.aTop.toNat) (n : Nat) :
    (ticks c n s).tcnt.toNat = (s.tcnt.toNat + n) % (c.aTop.toNat + 1) := by
  induction n with
  | zero => exact (Nat.mod_eq_of_lt (Nat.lt_succ_of_le within)).symm
  | succ n ih =>
    have still : (ticks c n s).tcnt.toNat ≤ c.aTop.toNat := by
      rw [ih]
      exact Nat.le_of_lt_succ (Nat.mod_lt _ (Nat.succ_pos _))
    rw [ticks, tick_tcnt_toNat still, ih, Nat.mod_add_mod, Nat.add_assoc]

/-- The A latch stays while no tick starts at `A_TOP`. -/
theorem ticks_aPending_of_never_top {n : Nat} (below : ∀ k < n, (ticks c k s).tcnt ≠ c.aTop) :
    (ticks c n s).aPending = s.aPending := by
  induction n with
  | zero => rfl
  | succ n ih =>
    rw [ticks, tick_aPending_below_top (below n n.lt_succ_self)]
    exact ih fun k lt => below k (Nat.lt_succ_of_lt lt)

/-- The B latch stays while no tick ends at `OCRB`. -/
theorem ticks_bPending_of_never_match {n : Nat} (miss : ∀ k < n, (ticks c (k + 1) s).tcnt ≠ s.ocrb) :
    (ticks c n s).bPending = s.bPending := by
  induction n with
  | zero => rfl
  | succ n ih =>
    have last : (tick c (ticks c n s)).tcnt ≠ (ticks c n s).ocrb := by
      rw [ticks_ocrb]
      exact miss n n.lt_succ_self
    rw [ticks, tick_bPending_of_no_match last]
    exact ih fun k lt => miss k (Nat.lt_succ_of_lt lt)

/-- From count 0, the first `A_TOP` ticks count up and none starts at `A_TOP`. -/
theorem ticks_from_zero (start : s.tcnt = 0) {n : Nat} (inPeriod : n ≤ c.aTop.toNat) :
    (ticks c n s).tcnt.toNat = n ∧ (ticks c n s).aPending = s.aPending := by
  have count : ∀ k ≤ c.aTop.toNat, (ticks c k s).tcnt.toNat = k := by
    intro k le
    have zero : s.tcnt.toNat = 0 := by rw [start]; rfl
    rw [ticks_tcnt_toNat (by omega), zero, Nat.zero_add, Nat.mod_eq_of_lt (by omega)]
  refine ⟨count n inPeriod, ticks_aPending_of_never_top fun k lt top => ?_⟩
  have early : (ticks c k s).tcnt.toNat = k := count k (by omega)
  rw [top] at early
  omega

end Ticks

/-- Settles O41: the two cases of the tick, the B latch on the new count, and the period by induction over the ticks. -/
theorem timerTick : Obligations.TimerTick := by
  intro c s
  refine ⟨tick_frame c s, fun top => ⟨tick_tcnt_at_top top, tick_aPending_at_top top⟩,
    fun below => ⟨tick_tcnt_below_top below, tick_aPending_below_top below⟩, tick_bPending_of_match,
    tick_bPending_of_no_match, fun start clear => ?_⟩
  have top : (ticks c c.aTop.toNat s).tcnt = c.aTop := BitVec.eq_of_toNat_eq (ticks_from_zero start le_rfl).1
  refine ⟨fun n inPeriod => ?_, tick_tcnt_at_top top, tick_aPending_at_top top⟩
  rw [← clear]
  exact ticks_from_zero start inPeriod

/-! ### Compare B -/

/-- Within one period two different numbers of ticks lead to different counts. -/
theorem add_mod_ne_of_lt {start period k d : Nat} (less : k < d) (close : d - k < period) :
    (start + k) % period ≠ (start + d) % period := by
  intro same
  have agree : k ≡ d [MOD period] := Nat.ModEq.add_left_cancel' start same
  have divides : period ∣ d - k := (Nat.modEq_iff_dvd' less.le).mp agree
  have le : period ≤ d - k := Nat.le_of_dvd (Nat.sub_pos_of_lt less) divides
  omega

section CompareB

variable {c : Config} {s : State}

/-- The B latch rises on the first tick that brings the count round to `OCRB`. -/
theorem ticks_bPending_of_first_match {d : Nat} (within : s.tcnt.toNat ≤ c.aTop.toNat) (clear : s.bPending = false)
    (ahead : 0 < d) (onePeriod : d ≤ c.aTop.toNat + 1)
    (meets : (s.tcnt.toNat + d) % (c.aTop.toNat + 1) = s.ocrb.toNat) :
    (∀ k < d, (ticks c k s).bPending = false) ∧ (ticks c d s).bPending = true := by
  constructor
  · intro k early
    rw [ticks_bPending_of_never_match, clear]
    intro j lt hit
    have count : (s.tcnt.toNat + (j + 1)) % (c.aTop.toNat + 1) = s.ocrb.toNat := by
      rw [← ticks_tcnt_toNat within, hit]
    exact add_mod_ne_of_lt (by omega) (by omega) (count.trans meets.symm)
  · obtain ⟨n, rfl⟩ : ∃ n, d = n + 1 := ⟨d - 1, by omega⟩
    refine tick_bPending_of_match (BitVec.eq_of_toNat_eq ?_)
    rw [ticks_ocrb, ← meets]
    exact ticks_tcnt_toNat within (n + 1)

/-- A compare value above `A_TOP` is never reached (R252). -/
theorem ticks_bPending_of_top_lt_ocrb (within : s.tcnt.toNat ≤ c.aTop.toNat) (outside : c.aTop.toNat < s.ocrb.toNat)
    (n : Nat) : (ticks c n s).bPending = s.bPending := by
  refine ticks_bPending_of_never_match fun k _ hit => ?_
  have count := ticks_tcnt_toNat within (k + 1)
  have bound : (s.tcnt.toNat + (k + 1)) % (c.aTop.toNat + 1) < c.aTop.toNat + 1 := Nat.mod_lt _ (Nat.succ_pos _)
  rw [hit] at count
  omega

end CompareB

/-- Settles O42: `d` ticks lead to `OCRB` without a wrap where it lies ahead, and with one where it does not. -/
theorem compareBMatch : Obligations.CompareBMatch := by
  refine ⟨fun c s d within inRange clear distance => ?_, fun c s n within outside => ?_, fun c s t h => ?_⟩
  · split at distance
    case isTrue ahead =>
      refine ticks_bPending_of_first_match within clear (by omega) (by omega) ?_
      have sum : s.tcnt.toNat + d = s.ocrb.toNat := by omega
      rw [sum, Nat.mod_eq_of_lt (by omega)]
    case isFalse behind =>
      refine ticks_bPending_of_first_match within clear (by omega) (by omega) ?_
      have sum : s.tcnt.toNat + d = s.ocrb.toNat + (c.aTop.toNat + 1) := by omega
      rw [sum, Nat.add_mod_right, Nat.mod_eq_of_lt (by omega)]
  · exact ticks_bPending_of_top_lt_ocrb within outside n
  · exact ⟨prepare_bPending h, prepare_aPending h⟩

end Sys2Proof.Proofs
end

