-- ==== Sys2Proof/Proofs/Interrupts.lean ====
section
/-! PROOFS. Entry of a handler (60_exceptions.md R256), which agents are held (R257), and the recorded fault (R272). -/

namespace Sys2Proof.Proofs

open Sys2Proof.Machine Sys2Proof.Laws Sys2Proof.Claims

/-! ### Entry of a handler -/

section Entry

variable {s : State}

/-- Entry of the A handler, whether or not B is latched too (R256, R258). -/
theorem sequencerStep_at_idle_aPending (c : Config) (idle : s.seq = .idle) (a : s.aPending = true) :
    ∃ fs, (∀ f, f ∈ fs ↔ f ∈ s.faults ∨ (s.lastPulse = true ∧ f = .rebuildLate)) ∧
      sequencerStep c s = .next { s with aPending := false, seq := .aStart1, faults := fs } := by
  obtain ⟨fs, members, -, -, entered⟩ := enter_a a
  refine ⟨fs, members, ?_⟩
  simp only [sequencerStep, idle, eventPending, a, Bool.true_or, if_true, entered]

theorem sequencerStep_at_idle_bPending (c : Config) (idle : s.seq = .idle) (a : s.aPending = false)
    (b : s.bPending = true) : sequencerStep c s = .next { s with bPending := false, seq := .bRun } := by
  simp only [sequencerStep, idle, eventPending, b, Bool.or_true, if_true, enter_b a]

/-- With no handler and no latch the sequencer has nothing to do (R257). -/
theorem sequencerStep_of_quiet (c : Config) (quiet : Quiet s) : sequencerStep c s = .next s := by
  obtain ⟨idle, a, b⟩ := quiet
  simp only [sequencerStep, idle, eventPending, a, b, Bool.or_self, Bool.false_eq_true, if_false]

end Entry

/-- Settles O44: the equation of each entry. -/
theorem enterHandler : Obligations.EnterHandler := by
  intro c s idle
  exact ⟨sequencerStep_at_idle_aPending c idle, sequencerStep_at_idle_bPending c idle⟩

/-! ### Preemption -/

section Preemption

variable {c : Config} {s t : State}

theorem foregroundStep_of_not_quiet (c : Config) (busy : ¬ Quiet s) : foregroundStep c s = .next s :=
  if_neg (mt (foregroundEnabled_iff_quiet s).mp busy)

theorem not_quiet_of_handler_or_event (busy : s.seq ≠ .idle ∨ s.aPending = true ∨ s.bPending = true) : ¬ Quiet s := by
  rintro ⟨idle, a, b⟩
  simp [idle, a, b] at busy

/-- An enabled foreground step completes, at the loop's next position (R230, R257). -/
theorem foregroundStep_moves_on (c : Config) (quiet : Quiet s) :
    ∃ t, foregroundStep c s = .next t ∧ t.fg = nextPosition s.fg := by
  cases position : s.fg with
  | checkNewCycle => exact ⟨_, foregroundStep_at_checkNewCycle c quiet position, rfl⟩
  | checkLastPulse => exact ⟨_, foregroundStep_at_checkLastPulse c quiet position, rfl⟩
  | dispatch =>
    rw [foregroundStep_at_dispatch c quiet position]
    cases queue : s.rx with
    | nil => exact ⟨_, dispatch_of_rx_nil queue, rfl⟩
    | cons op rest =>
      rw [dispatch_of_rx_cons queue]
      obtain ⟨chs, bs, e⟩ := exec_eq_next (decodeByte op) { s with rx := rest, fg := .checkNewCycle }
      exact ⟨_, e, rfl⟩

theorem nextPosition_ne (p : Fg) : nextPosition p ≠ p := by
  cases p <;> decide

theorem prepare_seq (h : prepare c s = .next t) : t.seq = s.seq := by
  obtain ⟨-, rfl⟩ | ⟨-, sl, -, rfl⟩ := prepare_next h <;> rfl

/-- An idle sequencer with an event enters that event's handler. -/
theorem sequencerStep_enters (c : Config) (idle : s.seq = .idle) (event : s.aPending = true ∨ s.bPending = true) :
    ∃ t, sequencerStep c s = .next t ∧ t.seq ≠ .idle := by
  cases a : s.aPending with
  | true =>
    obtain ⟨fs, -, e⟩ := sequencerStep_at_idle_aPending c idle a
    exact ⟨_, e, by simp⟩
  | false =>
    have b : s.bPending = true := by simpa [a] using event
    exact ⟨_, sequencerStep_at_idle_bPending c idle a b, by simp⟩

/-- A running handler goes through its own micro-steps or ends; it enters none (R257). -/
theorem sequencerStep_seq_of_running (running : s.seq ≠ .idle) (h : sequencerStep c s = .next t) :
    t.seq ≠ .aStart1 ∧ t.seq ≠ .bRun := by
  cases sequencerStep_next h with
  | held idle => exact absurd idle running
  | enteredA idle => exact absurd idle running
  | enteredB idle => exact absurd idle running
  | waited _ q => simp [q]
  | preparedA _ _ p => simp [prepare_seq p]
  | preparedB _ _ p => simp [prepare_seq p]
  | _ => simp

/-- A running handler clears no latch (R255). -/
theorem sequencerStep_latches_of_running (running : s.seq ≠ .idle) (h : sequencerStep c s = .next t) :
    t.aPending = s.aPending ∧ t.bPending = s.bPending :=
  ⟨(sequencerStep_aPending h).resolve_right fun ⟨_, idle, _⟩ => running idle,
    (sequencerStep_bPending h).resolve_right fun ⟨_, idle, _⟩ => running idle⟩

end Preemption

/-- Settles O45: each agent held or moving by its own lemma. -/
theorem heldAgents : Obligations.HeldAgents := by
  intro c s
  refine ⟨fun busy => foregroundStep_of_not_quiet c (not_quiet_of_handler_or_event busy), sequencerStep_of_quiet c,
    fun quiet => ?_, sequencerStep_enters c, fun t running h => ?_, fun period => ⟨_, rfl, tick_tcnt_ne s period⟩⟩
  · obtain ⟨t, e, position⟩ := foregroundStep_moves_on c quiet
    exact ⟨t, e, position ▸ nextPosition_ne s.fg⟩
  · obtain ⟨a, b⟩ := sequencerStep_latches_of_running running h
    exact ⟨a, b, sequencerStep_seq_of_running running h⟩

/-! ### The recorded fault -/

@[simp] theorem tick_faults (c : Config) (s : State) : (tick c s).faults = s.faults := by
  rw [tick_frame]

section Faults

variable {c : Config} {m : Move} {s t : State}

theorem prepare_faults (h : prepare c s = .next t) : t.faults = s.faults := by
  obtain ⟨-, rfl⟩ | ⟨-, sl, -, rfl⟩ := prepare_next h <;> rfl

theorem foregroundStep_faults (h : foregroundStep c s = .next t) : t.faults = s.faults := by
  cases foregroundStep_next h with
  | ran _ _ _ _ _ _ _ _ _ w => exact w ▸ rfl
  | _ => rfl

/-- A move from `s` to `t` enters the A handler and records `RebuildLate` just where `last_pulse` is 1 (R256, R272). -/
def EntersAHandler (s t : State) : Prop :=
  s.seq = .idle ∧ s.aPending = true ∧ t.seq = .aStart1 ∧
    ∀ f, f ∈ t.faults ↔ f ∈ s.faults ∨ (s.lastPulse = true ∧ f = .rebuildLate)

/-- The sequencer writes the fault set in no step but entry of the A handler. -/
theorem sequencerStep_faults (h : sequencerStep c s = .next t) :
    EntersAHandler s t ∨ ¬ (s.seq = .idle ∧ s.aPending = true) ∧ t.faults = s.faults := by
  by_cases entry : s.seq = .idle ∧ s.aPending = true
  · obtain ⟨idle, a⟩ := entry
    obtain ⟨fs, members, e⟩ := sequencerStep_at_idle_aPending c idle a
    cases e.symm.trans h
    exact .inl ⟨idle, a, rfl, members⟩
  · refine .inr ⟨entry, ?_⟩
    cases sequencerStep_next h with
    | enteredA idle a => exact absurd ⟨idle, a⟩ entry
    | preparedA _ _ p => exact (prepare_faults p :)
    | preparedB _ _ p => exact (prepare_faults p :)
    | _ => rfl

theorem moveStep_faults (h : moveStep c m s = .next t) :
    (m = .sequencer ∧ EntersAHandler s t) ∨
      ¬ (m = .sequencer ∧ s.seq = .idle ∧ s.aPending = true) ∧ t.faults = s.faults := by
  cases m with
  | tick => cases h; exact .inr ⟨by simp, tick_faults c s⟩
  | sequencer => exact (sequencerStep_faults h).imp (⟨rfl, ·⟩) fun ⟨other, same⟩ => ⟨fun ⟨_, entry⟩ => other entry, same⟩
  | foreground => exact .inr ⟨by simp, foregroundStep_faults h⟩
  | hostSend b => cases h; exact .inr ⟨by simp, rfl⟩
  | hostTake => cases h; exact .inr ⟨by simp, rfl⟩

end Faults

/-- Settles O52: entry of the A handler adds `RebuildLate` where `last_pulse` is 1, and no other move writes the set. -/
theorem faultsStayRecorded : Obligations.FaultsStayRecorded := by
  intro c m s t h
  obtain ⟨rfl, idle, a, entered, members⟩ | ⟨other, same⟩ := moveStep_faults h
  · refine ⟨fun f old => (members f).mpr (.inl old), fun _ _ _ late => (members _).mpr (.inr ⟨late, rfl⟩),
      fun f new fresh => ?_⟩
    obtain ⟨late, name⟩ := ((members f).mp new).resolve_left fresh
    exact ⟨name, rfl, idle, a, late, entered⟩
  · rw [same]
    exact ⟨fun _ old => old, fun own idle a _ => absurd ⟨own, idle, a⟩ other, fun _ new fresh => absurd new fresh⟩

end Sys2Proof.Proofs
end

