-- ==== Sys2Proof/Proofs/ResetState.lean ====
section
/-! PROOFS. What `REBUILD` leaves while every channel is dark (40_gamma_scheduler.md R110, R112), and that the reset state
is what the reset sequence leaves (70_reset_and_hazards.md R290). -/

namespace Sys2Proof.Proofs

open Sys2Proof.Machine Sys2Proof.Laws

section Dark

variable {chs : Channels}

/-- Channels at 0 contribute no slot and do not move the walk (R112). -/
theorem foldl_visitChannel_of_dark (c : Config) (dark : ∀ k, brightnessOf chs k = 0) (ks : List Chan) (w : Walk) :
    ks.foldl (visitChannel c chs) w = w := by
  induction ks with
  | nil => rfl
  | cons k ks ih =>
    have stay : visitChannel c chs w k = w := by simp [visitChannel, eligible, dark k]
    rw [List.foldl_cons, stay, ih]

/-- The walk stays at level 0, so it closes with the marker, its only slot (R110 step 3). -/
theorem builtSlots_of_dark {c : Config} (level : 0 < c.midLevel) (dark : ∀ k, brightnessOf chs k = 0) :
    builtSlots c chs = [marker c] := by
  rw [builtSlots, foldl_visitChannel_of_dark c dark, closeWalk, if_pos level]
  rfl

theorem builtInitialMask_of_dark (c : Config) (dark : ∀ k, brightnessOf chs k = 0) : builtInitialMask c chs = 0xFF := by
  simp [builtInitialMask, channelList, dark]

theorem rebuild_of_dark {c : Config} {s : State} (level : 0 < c.midLevel) (dark : ∀ k, brightnessOf s.ch k = 0) :
    rebuild c s = { s with
      slots := { s.slots with s0 := marker c }, count := 1, initialBitmask := 0xFF, index := 0, nextBitmask := 0 } := by
  rw [rebuild, builtSlots_of_dark level dark, builtInitialMask_of_dark c dark]
  rfl

end Dark

/-- The channel values of step (1) of R290. -/
theorem reset_channel (k : Chan) : State.reset.ch.get k = Channel.reset := by cases k <;> rfl

theorem reset_dark (k : Chan) : brightnessOf State.reset.ch k = 0 :=
  congrArg Channel.brightness (reset_channel k)

/-- Settles O55: the registers are read off; the channels are dark at reset, so the rebuild writes the marker alone. -/
theorem resetSequence : Obligations.ResetSequence := by
  refine ⟨reset_channel, rfl, rfl, rfl, rfl, rfl, rfl, rfl, rfl, rfl, rfl, rfl, rfl, rfl, rfl, rfl, rfl, ?_⟩
  intro s0 n i nb ib
  rw [rebuild_of_dark (c := chip) (by decide)]
  · rfl
  · exact reset_dark

end Sys2Proof.Proofs
end

