-- ==== Sys2Proof/Proofs/RoundTrips.lean ====
section
/-! PROOFS. Decode and encode agree in both directions, byte by byte and over whole strings (30_encoding.md R80-R86). -/

namespace Sys2Proof.Proofs

open Sys2Proof.Laws

/-! ### One byte -/

theorem decodeByte_encodeByte {i : Instr} (wf : i.wf = true) : decodeByte (encodeByte i) = i := by
  cases i with
  | tgtAllZero => exact ByteRoundTrip.tgtAllZero wf
  | tgt0Dec => exact ByteRoundTrip.tgt0Dec wf
  | tgt1Dec => exact ByteRoundTrip.tgt1Dec wf
  | tgt2Dec => exact ByteRoundTrip.tgt2Dec wf
  | tgt0Inc => exact ByteRoundTrip.tgt0Inc wf
  | tgt1Inc => exact ByteRoundTrip.tgt1Inc wf
  | tgt2Inc => exact ByteRoundTrip.tgt2Inc wf
  | tgtHold => exact ByteRoundTrip.tgtHold wf
  | speedHalve => exact ByteRoundTrip.speedHalve wf
  | speedDouble => exact ByteRoundTrip.speedDouble wf
  | reportSpeed => exact ByteRoundTrip.reportSpeed wf
  | reportBright => exact ByteRoundTrip.reportBright wf
  | ignore op => exact ByteRoundTrip.ignore op wf

/-- A row's command is well formed, and its byte is the row's. -/
theorem opcodeMap_row_encodes : ∀ row ∈ opcodeMap, row.instr.wf = true ∧ encodeByte row.instr = row.byte := by decide

/-- Every byte reads as a well-formed command that is written as that byte (R83, R85). -/
theorem decodeByte_encodes (op : Byte) : (decodeByte op).wf = true ∧ encodeByte (decodeByte op) = op := by
  obtain ⟨row, mem, rfl, read⟩ | ⟨other, read⟩ := decodeByte_cases op
  · rw [read]
    exact opcodeMap_row_encodes row mem
  · rw [read]
    exact ⟨by simpa [Instr.wf] using other, rfl⟩

/-! ### Whole strings -/

@[simp] theorem encodeStream_cons (i : Instr) (is : List Instr) :
    encodeStream (i :: is) = encodeByte i :: encodeStream is := rfl

theorem decodeStream_eq_map (bs : List Byte) : decodeStream bs = bs.map decodeByte := by
  induction bs with
  | nil => rfl
  | cons op rest ih => rw [decodeStream, ih, List.map_cons]

theorem encodeStream_eq_map (is : List Instr) : encodeStream is = is.map encodeByte := by
  induction is with
  | nil => rfl
  | cons i is ih => rw [encodeStream_cons, ih, List.map_cons]

/-! ### The obligations -/

/-- Settles O2: one command by its row or by the default row, a string of them command by command. -/
theorem commandStreamRoundTrip : Obligations.CommandStreamRoundTrip := by
  refine ⟨fun i wf rest => ?_, fun is wf => ?_⟩
  · rw [encode_eq, List.singleton_append, decode_cons, decodeByte_encodeByte wf]
  · rw [decodeStream_eq_map, encodeStream_eq_map, List.map_map]
    calc is.map (decodeByte ∘ encodeByte) = is.map id :=
        List.map_congr_left fun i mem => decodeByte_encodeByte (wf i mem)
      _ = is := List.map_id is

/-- Settles O3: what holds of each byte holds of each byte of the string. -/
theorem byteStreamRoundTrip : Obligations.ByteStreamRoundTrip := by
  intro bs
  rw [decodeStream_eq_map, encodeStream_eq_map, List.map_map]
  refine ⟨?_, ?_, List.length_map _⟩
  · rw [List.forall_mem_map]
    exact fun op _ => (decodeByte_encodes op).1
  · calc bs.map (encodeByte ∘ decodeByte) = bs.map id := List.map_congr_left fun op _ => (decodeByte_encodes op).2
      _ = bs := List.map_id bs

end Sys2Proof.Proofs
end

