-- ==== Sys2Proof/Proofs/LegalStates.lean ====
section
/-! PROOFS. The invariant of the whole machine (`Inv`): it holds at reset, every agent's move keeps it, and from a state
that has it every agent's move answers a next state (00_scope.md R14, 42_sequencer.md R155). -/

namespace Sys2Proof.Proofs

open Sys2Proof.Machine Sys2Proof.Laws Sys2Proof.Claims

/-! ### What a legal state gives -/

section Facts

variable {c : Config} {s : State}

/-- A legal entry's deadline is not 0, so compare B never matches the cleared count (R258). -/
theorem top_ne_zero_of_slotLegal (admitted : c.Admitted) {sl : Slot} (legal : SlotLegal c sl) : sl.top ≠ 0 := by
  obtain ⟨-, -, below, -, -⟩ := admitted
  obtain ⟨-, rfl | ⟨least, -⟩⟩ := legal
  · change c.midTop ≠ 0
    bv_omega
  · bv_omega

theorem bOff_ne_zero (admitted : c.Admitted) : c.bOff ≠ 0 := by
  obtain ⟨-, -, -, below, -⟩ := admitted
  bv_omega

/-- The marker's deadline is out of the counter's reach; a channel slot's is not (R9 (d), R9 (e)). -/
theorem eq_marker_iff_of_slotLegal (admitted : c.Admitted) {sl : Slot} (legal : SlotLegal c sl) :
    sl = marker c ↔ c.aTop < sl.top := by
  obtain ⟨-, -, below, -, -⟩ := admitted
  obtain ⟨-, rfl | ⟨-, inReach⟩⟩ := legal
  · exact ⟨fun _ => below, fun _ => rfl⟩
  · refine ⟨?_, fun outside => absurd inReach (BitVec.lt_asymm outside)⟩
    rintro rfl
    exact below

theorem currentSlot_legal (inv : Inv c s) (more : s.index.toNat < s.count.toNat) {sl : Slot}
    (slot : currentSlot s = some sl) : SlotLegal c sl :=
  inv.entries _ more sl slot

theorem currentSlot_isSome (inv : Inv c s) (more : s.index.toNat < s.count.toNat) : ∃ sl, currentSlot s = some sl :=
  get?_isSome s.slots (Nat.lt_of_lt_of_le more inv.countHigh)

/-- The spin's cursor stands on an entry in use (R155). -/
theorem index_lt_count_of_aSpin (inv : Inv c s) (position : s.seq = .aSpin) : s.index.toNat < s.count.toNat := by
  have cursor := inv.cursor
  rw [CursorLegal, position] at cursor
  obtain ⟨m, ⟨inUse, -⟩, le⟩ := cursor
  exact Nat.lt_of_le_of_lt le inUse

theorem index_lt_count_of_aSpinWait (inv : Inv c s) (position : s.seq = .aSpinWait) :
    s.index.toNat < s.count.toNat := by
  have cursor := inv.cursor
  rw [CursorLegal, position] at cursor
  obtain ⟨⟨m, ⟨inUse, -⟩, lt⟩, -⟩ := cursor
  exact Nat.lt_trans lt inUse

theorem slot_of_aSpinWait (inv : Inv c s) (position : s.seq = .aSpinWait) :
    ∃ sl, currentSlot s = some sl ∧ sl.top < c.aTop := by
  have cursor := inv.cursor
  rw [CursorLegal, position] at cursor
  exact cursor.2

/-- The invariant reads the counter, the schedule, what is staged, `seq` and the fault set, and nothing else. -/
theorem inv_frame (inv : Inv c s) (ch : Channels) (initial : Byte) (newCycle lastPulse a b : Bool) (port : Byte)
    (rx tx : List Byte) (fg : Fg) (script : List Move) (draws : Nat) :
    Inv c { s with
      ch := ch, initialBitmask := initial, newCycle := newCycle, lastPulse := lastPulse, aPending := a, bPending := b
      port := port, rx := rx, tx := tx, fg := fg, script := script, draws := draws } :=
  ⟨inv.counter, inv.countLow, inv.countHigh, inv.cursorBound, inv.entries, inv.hasMarker, inv.cursor, inv.compareB,
    inv.faultSet⟩

end Facts

/-! ### Every agent's move keeps the invariant -/

section Keeps

variable {c : Config} {s t : State}

theorem tick_keeps_inv (inv : Inv c s) : Inv c (tick c s) := by
  have within : (tick c s).tcnt ≤ c.aTop := by
    rw [BitVec.le_def, tick_tcnt_toNat inv.counter]
    exact Nat.le_of_lt_succ (Nat.mod_lt _ (Nat.succ_pos _))
  rw [tick_frame]
  exact ⟨within, inv.countLow, inv.countHigh, inv.cursorBound, inv.entries, inv.hasMarker, inv.cursor, inv.compareB,
    inv.faultSet⟩

/-- A step of the sequencer that writes neither the schedule nor what is staged keeps the invariant where the cursor is
legal for the new position. -/
theorem inv_of_goSeq (inv : Inv c s) {q : Seq} (cursor : CursorLegal c (goSeq q s)) : Inv c (goSeq q s) :=
  ⟨inv.counter, inv.countLow, inv.countHigh, inv.cursorBound, inv.entries, inv.hasMarker, cursor, inv.compareB,
    inv.faultSet⟩

/-- Slot preparation at the end of a handler: what is staged is an entry in use, so its mask is not the sentinel. -/
theorem prepare_keeps_inv (admitted : c.Admitted) (inv : Inv c s) {port : Byte}
    (h : prepare c { s with port := port, seq := .idle } = .next t) : Inv c t := by
  obtain ⟨-, rfl⟩ | ⟨more, sl, slot, rfl⟩ := prepare_next h
  · exact ⟨inv.counter, inv.countLow, inv.countHigh, Nat.zero_le _, inv.entries, inv.hasMarker, fun _ => rfl,
      bOff_ne_zero admitted, inv.faultSet⟩
  · have legal : SlotLegal c sl := currentSlot_legal inv more slot
    have advanced : (s.index + 1).toNat = s.index.toNat + 1 := index_succ_toNat more
    have bound : (s.index + 1).toNat ≤ s.count.toNat := advanced ▸ more
    exact ⟨inv.counter, inv.countLow, inv.countHigh, bound, inv.entries, inv.hasMarker,
      fun sentinel => absurd sentinel legal.1, top_ne_zero_of_slotLegal admitted legal, inv.faultSet⟩

/-- The spin waits only for a channel slot: the marker's deadline lies `GUARD` or more above every count (R155, R156). -/
theorem cursorLegal_of_mustWait (admitted : c.Admitted) (inv : Inv c s) {sl : Slot} (position : s.seq = .aSpin)
    (slot : currentSlot s = some sl) (near : sl.top.toNat < s.tcnt.toNat + c.guard.toNat) :
    CursorLegal c { s with seq := .aSpinWait } := by
  have inUse := index_lt_count_of_aSpin inv position
  have counter := BitVec.le_def.mp inv.counter
  have guarded : c.aTop.toNat + c.guard.toNat ≤ c.midTop.toNat := admitted.2.2.2.2
  have notMarker : sl ≠ marker c := by
    rintro rfl
    change c.midTop.toNat < _ at near
    omega
  have below : sl.top < c.aTop := ((currentSlot_legal inv inUse slot).2.resolve_left notMarker).2
  have cursor := inv.cursor
  rw [CursorLegal, position] at cursor
  obtain ⟨m, marked, le⟩ := cursor
  have lt : s.index.toNat < m := by
    refine Nat.lt_of_le_of_ne le fun same => notMarker ?_
    have there : currentSlot s = some (marker c) := by rw [currentSlot, same, marked.2]
    exact Option.some.inj (slot.symm.trans there)
  exact ⟨⟨m, marked, lt⟩, sl, slot, below⟩

/-- A spun slot stands before the marker, so the cursor moves on to the marker at most (R155). -/
theorem inv_of_spunSlot (inv : Inv c s) {port : Byte} (position : s.seq = .aSpinWait) :
    Inv c { s with port := port, index := s.index + 1, seq := .aSpin } := by
  have cursor := inv.cursor
  rw [CursorLegal, position] at cursor
  obtain ⟨⟨m, marked, lt⟩, -⟩ := cursor
  have inUse : s.index < s.count := Nat.lt_trans lt marked.1
  have advanced : (s.index + 1).toNat = s.index.toNat + 1 := index_succ_toNat inUse
  have bound : (s.index + 1).toNat ≤ s.count.toNat := advanced ▸ inUse
  have stillBefore : (s.index + 1).toNat ≤ m := advanced ▸ lt
  exact ⟨inv.counter, inv.countLow, inv.countHigh, bound, inv.entries, inv.hasMarker, ⟨m, marked, stillBefore⟩,
    inv.compareB, inv.faultSet⟩

theorem sequencerStep_keeps_inv (admitted : c.Admitted) (inv : Inv c s) (h : sequencerStep c s = .next t) :
    Inv c t := by
  have cursor := inv.cursor
  cases sequencerStep_next h with
  | held => exact inv
  | waited => exact inv
  | enteredA idle a =>
    obtain ⟨fs, -, nodup, -, e⟩ := enter_a a
    rw [CursorLegal, idle] at cursor
    rw [e]
    exact ⟨inv.counter, inv.countLow, inv.countHigh, inv.cursorBound, inv.entries, inv.hasMarker, cursor, inv.compareB,
      nodup inv.faultSet⟩
  | enteredB idle =>
    rw [CursorLegal, idle] at cursor
    exact inv_frame (inv_of_goSeq (q := .bRun) inv cursor) ..
  | startedCycle position sentinel =>
    rw [CursorLegal, position] at cursor
    obtain ⟨m, marked⟩ := inv.hasMarker
    have atZero : s.index.toNat ≤ m := by
      rw [cursor sentinel]
      exact Nat.zero_le m
    exact inv_frame (inv_of_goSeq (q := .aSpin) inv ⟨m, marked, atZero⟩) ..
  | sawWrap => exact inv_of_goSeq inv trivial
  | leftSpin => exact inv_of_goSeq inv trivial
  | mustWait sl position slot near => exact inv_of_goSeq inv (cursorLegal_of_mustWait admitted inv position slot near)
  | spunSlot _ position => exact inv_of_spunSlot inv position
  | preparedA _ _ p => exact prepare_keeps_inv (port := s.port) admitted inv p
  | preparedB _ _ p => exact prepare_keeps_inv admitted inv p

/-- A rebuild leaves a whole schedule with the cursor at its start (R115, R116, R118). -/
theorem rebuild_keeps_inv (admitted : c.Admitted) (level : 0 < c.midLevel) (mask : c.midMask ≠ 0) (inv : Inv c s)
    (idle : s.seq = .idle) : Inv c (rebuild c s) := by
  obtain ⟨legal, hasMarker, le_four⟩ := builtSlots_legal c admitted level mask s.ch
  obtain ⟨least, most⟩ := rebuild_count_bounds admitted level mask s
  have count : (rebuild c s).count.toNat = (builtSlots c s.ch).length := Nat.mod_eq_of_lt (by omega)
  have entry : ∀ i (lt : i < (builtSlots c s.ch).length),
      (rebuild c s).slots.get? i = some (builtSlots c s.ch)[i] := fun i lt => get_overlay s.slots _ i lt le_four
  refine ⟨inv.counter, least, most, Nat.zero_le _, ?_, ?_, ?_, inv.compareB, inv.faultSet⟩
  · intro i lt sl slot
    rw [count] at lt
    rw [entry i lt] at slot
    cases slot
    exact legal _ (List.getElem_mem lt)
  · obtain ⟨m, lt, e⟩ := List.mem_iff_getElem.mp hasMarker
    exact ⟨m, count.symm ▸ lt, (entry m lt).trans (congrArg some e)⟩
  · change CursorLegal c { s with
      slots := (rebuild c s).slots, count := (rebuild c s).count, initialBitmask := (rebuild c s).initialBitmask
      index := 0, nextBitmask := 0 }
    rw [CursorLegal, idle]
    exact fun _ => rfl

theorem foregroundStep_keeps_inv (admitted : c.Admitted) (level : 0 < c.midLevel) (mask : c.midMask ≠ 0)
    (inv : Inv c s) (h : foregroundStep c s = .next t) : Inv c t := by
  cases foregroundStep_next h with
  | rebuilt enabled =>
    have idle : s.seq = .idle := ((foregroundEnabled_iff_quiet s).mp enabled).1
    exact inv_frame (rebuild_keeps_inv admitted level mask inv idle) ..
  | ran _ _ _ _ _ _ _ _ _ w =>
    subst w
    exact inv_frame inv ..
  | held => exact inv
  | faded => exact inv_frame inv ..
  | noCycle => exact inv_frame inv ..
  | noPulse => exact inv_frame inv ..
  | noByte => exact inv_frame inv ..

theorem moveStep_keeps_inv (admitted : c.Admitted) (level : 0 < c.midLevel) (mask : c.midMask ≠ 0) {m : Move}
    (inv : Inv c s) (h : moveStep c m s = .next t) : Inv c t := by
  cases m with
  | tick => cases h; exact tick_keeps_inv inv
  | sequencer => exact sequencerStep_keeps_inv admitted inv h
  | foreground => exact foregroundStep_keeps_inv admitted level mask inv h
  | hostSend b => cases h; exact inv_frame inv ..
  | hostTake => cases h; exact inv_frame inv ..

end Keeps

/-- Settles O58: the choice of who moves touches none of the invariant's registers, and every agent's move keeps it. -/
theorem stepKeepsLegal : Obligations.StepKeepsLegal := by
  intro s t inv h
  obtain ⟨ms, n, e⟩ := step_eq_moveStep s
  rw [e] at h
  exact moveStep_keeps_inv chip_admitted (by decide) (by decide) (inv_frame inv ..) h

/-! ### The sequencer's step, by its position -/

section Positions

variable {s : State} (c : Config)

theorem sequencerStep_of_idle (position : s.seq = .idle) :
    sequencerStep c s = if eventPending s then .next (enter s) else .next s := by simp only [sequencerStep, position]

theorem sequencerStep_of_aStart1 (position : s.seq = .aStart1) : sequencerStep c s = aStart s := by
  simp only [sequencerStep, position]

theorem sequencerStep_of_aSpin (position : s.seq = .aSpin) : sequencerStep c s = aSpin c s := by
  simp only [sequencerStep, position]

theorem sequencerStep_of_aSpinWait (position : s.seq = .aSpinWait) : sequencerStep c s = aSpinWait s := by
  simp only [sequencerStep, position]

theorem sequencerStep_of_bRun (position : s.seq = .bRun) : sequencerStep c s = bRun c s := by
  simp only [sequencerStep, position]

end Positions

/-! ### Every agent's move answers a next state -/

section Completes

variable {c : Config} {s : State}

/-- Slot preparation stops only for a cursor past the four entries, which no legal state has (R25, R155). -/
theorem prepare_completes (inv : Inv c s) (port : Byte) :
    ∃ t, prepare c { s with port := port, seq := .idle } = .next t := by
  obtain ⟨-, e⟩ | ⟨-, sl, -, e⟩ | ⟨more, absent, -⟩ := prepare_cases c { s with port := port, seq := .idle }
  · exact ⟨_, e⟩
  · exact ⟨_, e⟩
  · obtain ⟨sl, slot⟩ := currentSlot_isSome inv more
    cases slot.symm.trans absent

theorem sequencerStep_completes (inv : Inv c s) : ∃ t, sequencerStep c s = .next t := by
  cases position : s.seq with
  | idle =>
    by_cases event : s.aPending = true ∨ s.bPending = true
    · obtain ⟨t, e, -⟩ := sequencerStep_enters c position event
      exact ⟨t, e⟩
    · simp only [not_or, Bool.not_eq_true] at event
      exact ⟨s, sequencerStep_of_quiet c ⟨position, event⟩⟩
  | aStart1 =>
    by_cases sentinel : s.nextBitmask = 0
    · exact ⟨_, sequencerStep_at_aStart1_sentinel c position sentinel⟩
    · exact ⟨_, sequencerStep_at_aStart1_staged c position sentinel⟩
  | aSpin =>
    obtain ⟨sl, slot⟩ := currentSlot_isSome inv (index_lt_count_of_aSpin inv position)
    exact ⟨_, sequencerStep_at_aSpin c position slot⟩
  | aSpinWait =>
    obtain ⟨sl, slot, -⟩ := slot_of_aSpinWait inv position
    by_cases due : sl.top ≤ s.tcnt
    · exact ⟨_, sequencerStep_at_aSpinWait_due c position slot due⟩
    · exact ⟨_, sequencerStep_at_aSpinWait_early c position slot (BitVec.not_le.mp due)⟩
  | aPrep =>
    rw [sequencerStep_at_aPrep c position]
    exact prepare_completes inv s.port
  | bRun =>
    rw [sequencerStep_of_bRun c position]
    exact prepare_completes inv _

theorem foregroundStep_completes (c : Config) (s : State) : ∃ t, foregroundStep c s = .next t := by
  by_cases quiet : Quiet s
  · obtain ⟨t, e, -⟩ := foregroundStep_moves_on c quiet
    exact ⟨t, e⟩
  · exact ⟨s, foregroundStep_of_not_quiet c quiet⟩

theorem moveStep_completes (inv : Inv c s) (m : Move) : ∃ t, moveStep c m s = .next t := by
  cases m with
  | tick => exact ⟨_, rfl⟩
  | sequencer => exact sequencerStep_completes inv
  | foreground => exact foregroundStep_completes c s
  | hostSend b => exact ⟨_, rfl⟩
  | hostTake => exact ⟨_, rfl⟩

end Completes

theorem step_completes {s : State} (inv : Inv chip s) : ∃ t, step s = .next t := by
  obtain ⟨ms, n, e⟩ := step_eq_moveStep s
  rw [e]
  exact moveStep_completes (inv_frame inv ..) (nextMove s)

/-- A run of one step more, where the first step completes. -/
theorem core_run_succ {s t : State} (n : Nat) (h : step s = .next t) :
    Host.Core.run core (n + 1) s = Host.Core.run core n t := by
  have first : core.step s = .next t := h
  simp only [Host.Core.run, first]

/-- Settles O59: progress from each legal state, and any number of steps by induction with O58. -/
theorem legalStatesNeverStop : Obligations.LegalStatesNeverStop := by
  intro s inv
  refine ⟨step_completes inv, fun n => ?_⟩
  induction n generalizing s with
  | zero => exact ⟨s, rfl, inv⟩
  | succ n ih =>
    obtain ⟨t, h⟩ := step_completes inv
    rw [core_run_succ n h]
    exact ih t (stepKeepsLegal s t inv h)

/-! ### The reset state -/

/-- Settles O57: one entry in use, the marker, with the cursor at 0. -/
theorem resetIsLegal : Obligations.ResetIsLegal := by
  refine ⟨⟨by decide, by decide, by decide, by decide, ?_, ⟨0, by decide, rfl⟩, fun _ => rfl, by decide, List.nodup_nil⟩,
    rfl⟩
  intro i inUse sl slot
  obtain rfl : i = 0 := Nat.lt_one_iff.mp inUse
  cases slot
  exact ⟨by decide, .inl rfl⟩

end Sys2Proof.Proofs
end

