-- ==== Sys2Proof/Proofs/FadeRuns.lean ====
section
/-! PROOFS. What a fade step keeps and bounds (41_fade.md R132, R134, R135), and how many steps a fade takes (R136): both
read off the exact arithmetic of one step, `fadeStepExact`. -/

namespace Sys2Proof.Proofs

open Sys2Proof.Machine Sys2Proof.Laws Sys2Proof.Claims

/-! ### The fixed-point value and the brightness -/

theorem fixedPoint_eq (x : Channel) : fixedPoint x = 256 * x.brightness.toNat + x.remainder.toNat := rfl

theorem brightness_toNat_eq_div (x : Channel) : x.brightness.toNat = fixedPoint x / 256 := by
  have := x.remainder.isLt
  rw [fixedPoint_eq]
  omega

theorem remainder_toNat_eq_mod (x : Channel) : x.remainder.toNat = fixedPoint x % 256 := by
  have := x.remainder.isLt
  rw [fixedPoint_eq]
  omega

theorem brightness_lt_target_iff (x : Channel) : x.brightness < x.target ↔ fixedPoint x < 256 * x.target.toNat := by
  rw [BitVec.lt_def, brightness_toNat_eq_div]
  omega

theorem target_lt_brightness_iff (x : Channel) :
    x.target < x.brightness ↔ 256 * x.target.toNat + 255 < fixedPoint x := by
  rw [BitVec.lt_def, brightness_toNat_eq_div]
  omega

/-! ### Frozen fades -/

/-- Taking a fixed-point value apart and accepting it again changes nothing (R22). -/
theorem acceptFade_join (x : Channel) : acceptFade x (join x.brightness x.remainder) = x := by
  rw [acceptFade, high_join, low_join]

/-- Settles O19: a step by 0 is accepted in either direction, and accepts the value there is. -/
theorem fadeFrozenAtSpeedZero : Obligations.FadeFrozenAtSpeedZero := by
  intro d x still
  have zero : x.speed.toNat = 0 := by rw [still]; rfl
  obtain ⟨up, -⟩ | ⟨down, -⟩ | ⟨-, same⟩ := fadeChannel_cases d x
  · have below := (brightness_lt_target_iff x).mp up
    rw [fadeChannel_up d up, if_pos (by omega), still, add_zero, acceptFade_join]
  · have above := (target_lt_brightness_iff x).mp down
    rw [fadeChannel_down d down, if_pos (by omega), still, sub_zero, acceptFade_join]
  · exact same

/-- Each channel fades by itself (R130). -/
theorem fade_get (s : State) (k : Chan) : ∃ d, (fade s).ch.get k = fadeChannel d (s.ch.get k) := by
  cases k <;> exact ⟨_, rfl⟩

/-- Settles O11: after `TGT_HOLD` each channel is at its target, where a fade step moves nothing. -/
theorem holdFreezesFade : Obligations.HoldFreezesFade := by
  refine fun s => ⟨_, rfl, Channels.ext_get fun k => ?_⟩
  obtain ⟨d, e⟩ := fade_get (mapTargets (fun x => x.brightness) s) k
  rw [e, fadeChannel_of_brightness_eq_target]
  rw [mapTargets_ch, get_map]

/-! ### One step -/

/-- Settles O20: the value is off by one wrap, which leaves the brightness byte and moves the remainder back. -/
theorem fadeUnseenWrap : Obligations.FadeUnseenWrap := by
  intro d x
  obtain ⟨-, -, up, down, -⟩ := fadeStepExact d x
  have oldValue := fixedPoint_eq x
  have newBrightness := brightness_toNat_eq_div (fadeChannel d x)
  have newRemainder := remainder_toNat_eq_mod (fadeChannel d x)
  have hr : x.remainder.toNat < 256 := x.remainder.isLt
  have hs : x.speed.toNat < 65536 := x.speed.isLt
  refine ⟨fun rising wraps => ?_, fun falling wraps => ?_⟩
  · have value := (up rising).2.2 (by omega)
    exact ⟨BitVec.eq_of_toNat_eq (by omega), by omega, BitVec.lt_def.mpr (by omega)⟩
  · have value := (down falling).2.2 wraps
    exact ⟨BitVec.eq_of_toNat_eq (by omega), by omega, BitVec.lt_def.mpr (by omega)⟩

theorem fadeChannel_brightness_of_up (d : Byte) {x : Channel} (up : x.brightness < x.target) :
    x.brightness ≤ (fadeChannel d x).brightness ∧ (fadeChannel d x).brightness ≤ x.target := by
  obtain ⟨-, ⟨-, clamped⟩ | ⟨within, accepted⟩⟩ | ⟨down, -⟩ | ⟨same, -⟩ := fadeChannel_cases d x
  · rw [clamped]
    exact ⟨BitVec.le_of_lt up, BitVec.le_refl _⟩
  · rw [accepted]
    exact within
  · exact absurd down (BitVec.lt_asymm up)
  · exact absurd same (BitVec.ne_of_lt up)

theorem fadeChannel_brightness_of_down (d : Byte) {x : Channel} (down : x.target < x.brightness) :
    x.target ≤ (fadeChannel d x).brightness ∧ (fadeChannel d x).brightness ≤ x.brightness := by
  obtain ⟨up, -⟩ | ⟨-, ⟨-, clamped⟩ | ⟨within, accepted⟩⟩ | ⟨same, -⟩ := fadeChannel_cases d x
  · exact absurd up (BitVec.lt_asymm down)
  · rw [clamped]
    exact ⟨BitVec.le_refl _, BitVec.le_of_lt down⟩
  · rw [accepted]
    exact within
  · exact absurd same.symm (BitVec.ne_of_lt down)

/-- Settles O21: a clamp ends at the target, an accepted value passed the byte test, and at the target nothing moves. -/
theorem fadeMonotoneNoOvershoot : Obligations.FadeMonotoneNoOvershoot := by
  intro d x
  obtain ⟨up, -⟩ | ⟨down, -⟩ | ⟨same, e⟩ := fadeChannel_cases d x
  · exact ⟨fun _ => fadeChannel_brightness_of_up d up, fun ge => absurd up (BitVec.not_lt.mpr ge)⟩
  · exact ⟨fun le => absurd down (BitVec.not_lt.mpr le), fun _ => fadeChannel_brightness_of_down d down⟩
  · rw [e]
    exact ⟨fun le => ⟨BitVec.le_refl _, le⟩, fun ge => ⟨ge, BitVec.le_refl _⟩⟩

/-! ### Many steps -/

section Duration

variable {draw : Nat → Byte} {x : Channel}

@[simp] theorem fadeTimes_target (draw : Nat → Byte) (n : Nat) (x : Channel) :
    (fadeTimes draw n x).target = x.target := by
  induction n with
  | zero => rfl
  | succ n ih => rw [fadeTimes, fadeChannel_target, ih]

@[simp] theorem fadeTimes_speed (draw : Nat → Byte) (n : Nat) (x : Channel) :
    (fadeTimes draw n x).speed = x.speed := by
  induction n with
  | zero => rfl
  | succ n ih => rw [fadeTimes, fadeChannel_speed, ih]

/-- `(d + s - 1) / s` is the least number of steps of `s` that cover `d`. -/
theorem lt_ceilDiv_iff {s : Nat} (pos : 1 ≤ s) (k d : Nat) : k < (d + s - 1) / s ↔ k * s < d := by
  rw [Nat.lt_iff_add_one_le, Nat.le_div_iff_mul_le pos, Nat.succ_mul]
  omega

/-- Short of the target's byte every step up is exact. -/
theorem fixedPoint_fadeTimes_up (draw : Nat → Byte) (x : Channel) {k : Nat}
    (short : fixedPoint x + k * x.speed.toNat < 256 * x.target.toNat) :
    fixedPoint (fadeTimes draw k x) = fixedPoint x + k * x.speed.toNat := by
  induction k with
  | zero => simp [fadeTimes]
  | succ k ih =>
    rw [Nat.add_one_mul k] at short ⊢
    have before := ih (by omega)
    obtain ⟨-, -, up, -, -⟩ := fadeStepExact (draw k) (fadeTimes draw k x)
    rw [brightness_lt_target_iff, fadeTimes_target, fadeTimes_speed, before] at up
    rw [fadeTimes, (up (by omega)).1 (by omega)]
    omega

/-- Above the target's byte every step down is exact. -/
theorem fixedPoint_fadeTimes_down (draw : Nat → Byte) (x : Channel) {k : Nat}
    (short : 256 * x.target.toNat + 255 + k * x.speed.toNat < fixedPoint x) :
    fixedPoint (fadeTimes draw k x) + k * x.speed.toNat = fixedPoint x := by
  induction k with
  | zero => simp [fadeTimes]
  | succ k ih =>
    rw [Nat.add_one_mul k] at short ⊢
    have before := ih (by omega)
    obtain ⟨-, -, -, down, -⟩ := fadeStepExact (draw k) (fadeTimes draw k x)
    rw [target_lt_brightness_iff, fadeTimes_target, fadeTimes_speed] at down
    rw [fadeTimes]
    have value := (down (by omega)).1 (by omega)
    omega

/-- At a speed without unseen wraps, the step up that would reach the target's byte ends in it. -/
theorem fadeChannel_reaches_up (d : Byte) (slow : x.speed.toNat ≤ 65280) (up : x.brightness < x.target)
    (reaches : 256 * x.target.toNat ≤ fixedPoint x + x.speed.toNat) : (fadeChannel d x).brightness = x.target := by
  obtain ⟨-, -, steps, -, -⟩ := fadeStepExact d x
  obtain ⟨accept, clamp, -⟩ := steps up
  have value := fixedPoint_eq x
  have hr : x.remainder.toNat < 256 := x.remainder.isLt
  by_cases inByte : fixedPoint x + x.speed.toNat < 256 * (x.target.toNat + 1)
  · have new := accept inByte
    apply BitVec.eq_of_toNat_eq
    rw [brightness_toNat_eq_div]
    omega
  · exact (clamp (by omega) (by omega)).1

/-- At a speed without unseen wraps, the step down that would reach the target's byte ends in it. -/
theorem fadeChannel_reaches_down (d : Byte) (slow : x.speed.toNat ≤ 65280) (down : x.target < x.brightness)
    (reaches : fixedPoint x ≤ 256 * x.target.toNat + 255 + x.speed.toNat) :
    (fadeChannel d x).brightness = x.target := by
  obtain ⟨-, -, -, steps, -⟩ := fadeStepExact d x
  obtain ⟨accept, clamp, -⟩ := steps down
  by_cases inByte : 256 * x.target.toNat + x.speed.toNat ≤ fixedPoint x
  · have new := accept inByte
    apply BitVec.eq_of_toNat_eq
    rw [brightness_toNat_eq_div]
    omega
  · exact (clamp (by omega) (by omega)).1

/-- The first step up into the target's byte is the first that covers the distance to it. -/
theorem fadeTimes_first_up (slow : x.speed.toNat ≤ 65280) (up : x.brightness < x.target)
    {n : Nat} (least : ∀ k, k < n ↔ k * x.speed.toNat < 256 * x.target.toNat - fixedPoint x) :
    (fadeTimes draw n x).brightness = x.target ∧ ∀ k < n, (fadeTimes draw k x).brightness ≠ x.target := by
  have start := (brightness_lt_target_iff x).mp up
  have below : ∀ k < n, fixedPoint (fadeTimes draw k x) = fixedPoint x + k * x.speed.toNat ∧
      (fadeTimes draw k x).brightness < x.target := by
    intro k lt
    have short := (least k).mp lt
    have value := fixedPoint_fadeTimes_up draw x (k := k) (by omega)
    refine ⟨value, ?_⟩
    rw [← fadeTimes_target draw k x, brightness_lt_target_iff, value, fadeTimes_target]
    omega
  refine ⟨?_, fun k lt => BitVec.ne_of_lt (below k lt).2⟩
  obtain ⟨m, rfl⟩ : ∃ m, n = m + 1 := ⟨n - 1, by have := (least 0).mpr (by omega); omega⟩
  have covers := mt (least (m + 1)).mpr (lt_irrefl _)
  rw [Nat.add_one_mul m] at covers
  obtain ⟨value, short⟩ := below m m.lt_succ_self
  rw [fadeTimes, ← fadeTimes_target draw m x]
  apply fadeChannel_reaches_up
  · rwa [fadeTimes_speed]
  · rwa [fadeTimes_target]
  · rw [fadeTimes_target, fadeTimes_speed, value]
    omega

/-- The first step down into the target's byte is the first that covers the distance to it. -/
theorem fadeTimes_first_down (slow : x.speed.toNat ≤ 65280) (down : x.target < x.brightness)
    {n : Nat} (least : ∀ k, k < n ↔ k * x.speed.toNat < fixedPoint x - 256 * x.target.toNat - 255) :
    (fadeTimes draw n x).brightness = x.target ∧ ∀ k < n, (fadeTimes draw k x).brightness ≠ x.target := by
  have start := (target_lt_brightness_iff x).mp down
  have above : ∀ k < n, fixedPoint (fadeTimes draw k x) + k * x.speed.toNat = fixedPoint x ∧
      x.target < (fadeTimes draw k x).brightness := by
    intro k lt
    have short := (least k).mp lt
    have value := fixedPoint_fadeTimes_down draw x (k := k) (by omega)
    refine ⟨value, ?_⟩
    rw [← fadeTimes_target draw k x, target_lt_brightness_iff, fadeTimes_target]
    omega
  refine ⟨?_, fun k lt => (BitVec.ne_of_lt (above k lt).2).symm⟩
  obtain ⟨m, rfl⟩ : ∃ m, n = m + 1 := ⟨n - 1, by have := (least 0).mpr (by omega); omega⟩
  have covers := mt (least (m + 1)).mpr (lt_irrefl _)
  rw [Nat.add_one_mul m] at covers
  obtain ⟨value, short⟩ := above m m.lt_succ_self
  rw [fadeTimes, ← fadeTimes_target draw m x]
  apply fadeChannel_reaches_down
  · rwa [fadeTimes_speed]
  · rwa [fadeTimes_target]
  · rw [fadeTimes_target, fadeTimes_speed]
    omega

end Duration

/-- Settles O22: the quotient, rounded up, is the least number of steps that covers the distance. -/
theorem fadeDurationExact : Obligations.FadeDurationExact := by
  intro draw x pos slow
  refine ⟨fun up n duration => ?_, fun down n duration => ?_⟩
  · subst duration
    exact fadeTimes_first_up slow up fun k => lt_ceilDiv_iff pos k _
  · subst duration
    exact fadeTimes_first_down slow down fun k => lt_ceilDiv_iff pos k _

end Sys2Proof.Proofs
end

