-- ==== Sys2Proof/Proofs/Agents.lean ====
section
/-! PROOFS. What each agent's move writes and reads (10_state.md section 9), the queues (R35), the move a step makes, and the
refusal of a bad configuration (60_exceptions.md R273). -/

namespace Sys2Proof.Proofs

open Sys2Proof.Machine Sys2Proof.Laws Sys2Proof.Claims

/-! ### What a command writes -/

/-- A new target leaves the fade's fixed-point value of every channel. -/
theorem setTarget_get (k j : Chan) (v : Byte) (s : State) :
    ((setTarget k v s).ch.get j).brightness = (s.ch.get j).brightness ∧
      ((setTarget k v s).ch.get j).remainder = (s.ch.get j).remainder := by
  rw [setTarget_ch]
  by_cases same : j = k
  · subst same
    rw [get_set_self]
    exact ⟨rfl, rfl⟩
  · rw [get_set_other _ _ same]
    exact ⟨rfl, rfl⟩

/-- Settles O17: each kind of rewrite leaves the brightness and the remainder, and only `emit` touches `TX`. -/
theorem commandsWriteOnlyTargetSpeedTx : Obligations.CommandsWriteOnlyTargetSpeedTx := by
  intro i s
  have nothingSent : ∃ bs, s.tx = s.tx ++ bs := ⟨[], (List.append_nil _).symm⟩
  obtain ⟨k, v, e⟩ | ⟨f, e⟩ | ⟨f, e⟩ | ⟨bs, e⟩ | e := exec_cases i s
  · exact ⟨_, e, rfl, fun j => setTarget_get k j v s, nothingSent⟩
  · refine ⟨_, e, rfl, fun j => ?_, nothingSent⟩
    rw [mapTargets_ch, get_map]
    exact ⟨rfl, rfl⟩
  · refine ⟨_, e, rfl, fun j => ?_, nothingSent⟩
    rw [mapSpeeds_ch, get_map]
    exact ⟨rfl, rfl⟩
  · exact ⟨_, e, rfl, fun _ => ⟨rfl, rfl⟩, bs, rfl⟩
  · exact ⟨_, e, rfl, fun _ => ⟨rfl, rfl⟩, nothingSent⟩

/-! ### What each agent writes -/

section Frames

variable {c : Config} {s t : State}

theorem prepare_frame (h : prepare c s = .next t) :
    t = { s with index := t.index, lastPulse := t.lastPulse, ocrb := t.ocrb, nextBitmask := t.nextBitmask } := by
  obtain ⟨-, rfl⟩ | ⟨-, sl, -, rfl⟩ := prepare_next h <;> rfl

theorem sequencerStep_frame (h : sequencerStep c s = .next t) :
    t = { s with
      ocrb := t.ocrb, aPending := t.aPending, bPending := t.bPending, port := t.port, index := t.index,
      nextBitmask := t.nextBitmask, newCycle := t.newCycle, lastPulse := t.lastPulse, seq := t.seq,
      faults := t.faults } := by
  cases sequencerStep_next h with
  | enteredA _ a =>
    obtain ⟨_, -, -, -, e⟩ := enter_a a
    rw [e]
  | preparedA _ _ p => rw [prepare_frame p]
  | preparedB _ _ p => rw [prepare_frame p]
  | _ => rfl

theorem foregroundStep_frame (h : foregroundStep c s = .next t) :
    t = { s with
      ch := t.ch, slots := t.slots, count := t.count, index := t.index, nextBitmask := t.nextBitmask,
      initialBitmask := t.initialBitmask, newCycle := t.newCycle, lastPulse := t.lastPulse, rx := t.rx, tx := t.tx,
      fg := t.fg, draws := t.draws } := by
  cases foregroundStep_next h with
  | ran _ _ _ _ _ _ _ _ _ w => rw [w]
  | _ => rfl

end Frames

/-- Settles O49: each agent by its frame. -/
theorem agentFrames : Obligations.AgentFrames := by
  intro c s t
  refine ⟨fun h => ?_, sequencerStep_frame, foregroundStep_frame, fun b h => ?_, fun h => ?_⟩
  · cases h
    exact tick_frame c s
  · cases h
    rfl
  · cases h
    rfl

/-! ### What the timer and the sequencer read -/

/-- The state with other channel registers. -/
def withCh (chs : Channels) (s : State) : State := { s with ch := chs }

section Isolation

variable (c : Config) (s : State) (chs : Channels)

theorem withCh_aPending : (withCh chs s).aPending = s.aPending := rfl
theorem withCh_eventPending : eventPending (withCh chs s) = eventPending s := rfl
theorem withCh_count : (withCh chs s).count = s.count := rfl
theorem withCh_index : (withCh chs s).index = s.index := rfl
theorem withCh_nextBitmask : (withCh chs s).nextBitmask = s.nextBitmask := rfl
theorem withCh_tcnt : (withCh chs s).tcnt = s.tcnt := rfl
theorem withCh_currentSlot : currentSlot (withCh chs s) = currentSlot s := rfl

theorem tick_withCh : tick c (withCh chs s) = withCh chs (tick c s) := by
  obtain ⟨top, e⟩ | ⟨below, e⟩ := tick_cases c s
  · obtain ⟨-, e'⟩ | ⟨below, -⟩ := tick_cases c (withCh chs s)
    · rw [e, e']; rfl
    · exact absurd top below
  · obtain ⟨top, -⟩ | ⟨-, e'⟩ := tick_cases c (withCh chs s)
    · exact absurd top below
    · rw [e, e']; rfl

theorem enter_withCh : enter (withCh chs s) = withCh chs (enter s) := by
  simp only [enter, withCh_aPending, apply_ite (withCh chs)]
  rfl

theorem prepare_withCh :
    prepare c (withCh chs s) = mapNext (withCh chs) (prepare c s) := by
  simp only [prepare, withCh_count, withCh_index, withCh_currentSlot, apply_ite (mapNext (withCh chs))]
  cases currentSlot s <;> rfl

theorem aSpin_withCh : aSpin c (withCh chs s) = mapNext (withCh chs) (aSpin c s) := by
  simp only [aSpin, withCh_tcnt, withCh_currentSlot]
  cases currentSlot s <;> rfl

theorem aSpinWait_withCh : aSpinWait (withCh chs s) = mapNext (withCh chs) (aSpinWait s) := by
  simp only [aSpinWait, withCh_tcnt, withCh_currentSlot]
  cases currentSlot s with
  | none => rfl
  | some sl =>
    simp only [apply_ite (mapNext (withCh chs))]
    rfl

theorem aStart_withCh : aStart (withCh chs s) = mapNext (withCh chs) (aStart s) := by
  simp only [aStart, withCh_nextBitmask, apply_ite (mapNext (withCh chs))]
  rfl

/-- No micro-step reads a channel register. -/
theorem sequencerStep_withCh :
    sequencerStep c (withCh chs s) = mapNext (withCh chs) (sequencerStep c s) := by
  cases position : s.seq with
  | idle =>
    rw [sequencerStep_of_idle c position, sequencerStep_of_idle c (s := withCh chs s) position, enter_withCh]
    rw [withCh_eventPending, apply_ite (mapNext (withCh chs))]
    rfl
  | aStart1 =>
    rw [sequencerStep_of_aStart1 c position, sequencerStep_of_aStart1 c (s := withCh chs s) position]
    exact aStart_withCh s chs
  | aSpin =>
    rw [sequencerStep_of_aSpin c position, sequencerStep_of_aSpin c (s := withCh chs s) position]
    exact aSpin_withCh c s chs
  | aSpinWait =>
    rw [sequencerStep_of_aSpinWait c position, sequencerStep_of_aSpinWait c (s := withCh chs s) position]
    exact aSpinWait_withCh s chs
  | aPrep =>
    rw [sequencerStep_at_aPrep c position, sequencerStep_at_aPrep c (s := withCh chs s) position]
    exact prepare_withCh c { s with seq := .idle } chs
  | bRun =>
    rw [sequencerStep_of_bRun c position, sequencerStep_of_bRun c (s := withCh chs s) position]
    exact prepare_withCh c (handlerReturn (orPort (stagedMask c s) s)) chs

end Isolation

/-- Settles O50: the tick and every micro-step commute with a change of the channel registers. -/
theorem handlersNeverReadChannels : Obligations.HandlersNeverReadChannels := by
  rintro c m s chs (rfl | rfl)
  · exact congrArg Host.Outcome.next (tick_withCh c s chs)
  · exact sequencerStep_withCh c s chs

/-! ### The queues -/

section Queues

variable {c : Config} {s t : State}

theorem foregroundStep_rx (h : foregroundStep c s = .next t) :
    t.rx = s.rx ∨ (Quiet s ∧ s.fg = .dispatch ∧ ∃ b, s.rx = b :: t.rx) := by
  cases foregroundStep_next h with
  | ran op rest _ _ _ enabled position queue _ w =>
    subst w
    exact .inr ⟨(foregroundEnabled_iff_quiet s).mp enabled, position, op, queue⟩
  | _ => exact .inl rfl

theorem foregroundStep_tx (h : foregroundStep c s = .next t) :
    t.tx = s.tx ∨ (Quiet s ∧ ∃ bs, t.tx = s.tx ++ bs) := by
  cases foregroundStep_next h with
  | rebuilt enabled => exact .inr ⟨(foregroundEnabled_iff_quiet s).mp enabled, _, rfl⟩
  | ran _ _ _ bs _ enabled _ _ _ w =>
    subst w
    exact .inr ⟨(foregroundEnabled_iff_quiet s).mp enabled, bs, rfl⟩
  | _ => exact .inl rfl

theorem hostTake_tx (s : State) : (hostTake s).tx = s.tx ∨ ∃ b, s.tx = b :: (hostTake s).tx := by
  rw [hostTake]
  cases s.tx with
  | nil => exact .inl rfl
  | cons b bs => exact .inr ⟨b, rfl⟩

end Queues

/-- Settles O51: the timer's and the sequencer's frames hold both queues, the others write them as their lemmas say. -/
theorem queueDiscipline : Obligations.QueueDiscipline := by
  intro c m s t h
  cases m with
  | tick =>
    cases h
    rw [tick_frame]
    exact ⟨.inl rfl, .inl rfl⟩
  | sequencer =>
    rw [sequencerStep_frame h]
    exact ⟨.inl rfl, .inl rfl⟩
  | foreground =>
    exact ⟨(foregroundStep_rx h).imp_right fun took => .inr ⟨rfl, took⟩,
      (foregroundStep_tx h).imp_right fun sent => .inr ⟨rfl, sent⟩⟩
  | hostSend b =>
    cases h
    exact ⟨.inr (.inl ⟨b, rfl, rfl⟩), .inl rfl⟩
  | hostTake =>
    cases h
    exact ⟨.inl rfl, (hostTake_tx s).imp_right fun took => .inl ⟨rfl, took⟩⟩

/-- Settles O53: a take from `TX` is its tail. -/
theorem hostMoves : Obligations.HostMoves := by
  intro c s
  refine ⟨fun b => rfl, fun b bs queue => ?_, fun empty => ?_⟩
  · rw [moveStep, hostTake, queue, List.tail_cons]
  · rw [moveStep, hostTake, empty, List.tail_nil, ← empty]

/-! ### The move a step makes -/

theorem step_of_script_cons {s : State} {m : Move} {ms : List Move} (chosen : s.script = m :: ms) :
    step s = moveStep chip m { s with script := ms } := by
  simp only [step, stepOf, nextMove, chooseMove, chosen]

theorem step_of_script_nil {s : State} (unchosen : s.script = []) :
    step s = moveStep chip (Config.freeMove s.draws) { s with draws := s.draws + 1 } := by
  simp only [step, stepOf, nextMove, chooseMove, unchosen]

/-- Settles O6: one equation for each form of `script`. -/
theorem stepMakesTheChosenMove : Obligations.StepMakesTheChosenMove :=
  ⟨fun _ _ _ => step_of_script_cons, fun _ => step_of_script_nil⟩

/-- Settles O4: the chosen move is the foreground's, which at `Dispatch` runs what the head of `RX` decodes to. -/
theorem stepRunsDecodedCommand : Obligations.StepRunsDecodedCommand := by
  intro s ms quiet position chosen
  have dispatches : step s = dispatch { s with script := ms } := by
    rw [step_of_script_cons chosen]
    exact foregroundStep_at_dispatch chip (s := { s with script := ms }) quiet position
  rw [dispatches]
  refine ⟨fun op rest i queue read => ?_, fun empty => dispatch_of_rx_nil (s := { s with script := ms }) empty⟩
  rw [queue, decode_cons] at read
  cases read
  exact dispatch_of_rx_cons (s := { s with script := ms }) queue

/-- Settles O39: the enabled step completes at the next position. -/
theorem foregroundCyclesPositions : Obligations.ForegroundCyclesPositions :=
  fun c _ quiet => foregroundStep_moves_on c quiet

/-! ### Bad configurations -/

theorem stepUnder_of_admitted {c : Config} (admitted : c.Admitted) (s : State) : stepUnder c s = stepOf c s :=
  if_pos admitted

section NotRefused

variable (c : Config) (s : State) (r : Refusal)

theorem prepare_not_refused : prepare c s ≠ .refused r := by
  obtain ⟨-, e⟩ | ⟨-, _, -, e⟩ | ⟨-, -, e⟩ := prepare_cases c s <;> rw [e] <;> simp

/-- The sequencer's one stop is the fault for a cursor past the entries. -/
theorem sequencerStep_not_refused : sequencerStep c s ≠ .refused r := by
  cases position : s.seq with
  | idle =>
    rw [sequencerStep_of_idle c position]
    split <;> simp
  | aStart1 =>
    rw [sequencerStep_of_aStart1 c position, aStart]
    split <;> simp
  | aSpin =>
    rw [sequencerStep_of_aSpin c position, aSpin]
    split <;> simp
  | aSpinWait =>
    rw [sequencerStep_of_aSpinWait c position, aSpinWait]
    split
    · split <;> simp
    · simp
  | aPrep =>
    rw [sequencerStep_at_aPrep c position]
    exact prepare_not_refused c _ r
  | bRun =>
    rw [sequencerStep_of_bRun c position]
    exact prepare_not_refused c _ r

theorem moveStep_not_refused (m : Move) : moveStep c m s ≠ .refused r := by
  cases m with
  | sequencer => exact sequencerStep_not_refused c s r
  | foreground =>
    obtain ⟨t, e⟩ := foregroundStep_completes c s
    rw [moveStep, e]
    simp
  | tick => simp [moveStep]
  | hostSend b => simp [moveStep]
  | hostTake => simp [moveStep]

end NotRefused

/-- Settles O54: the check of `stepUnder` fails for a bad configuration and passes for the machine's own, whose moves refuse
nothing. -/
theorem badConfigRefused : Obligations.BadConfigRefused := by
  refine ⟨fun c s bad => if_neg bad, fun s => ?_⟩
  rw [stepUnder_of_admitted chip_admitted]
  exact ⟨rfl, moveStep_not_refused chip (chooseMove s) .badConfig (nextMove s)⟩

end Sys2Proof.Proofs
end

