-- ==== Sys2Proof/Proofs/Events.lean ====
section
/-! PROOFS. What one event leads to (42_sequencer.md sections 1 to 4): the handler of each kind as a run of the sequencer
alone that ends in slot preparation, the order in which slot preparation walks the schedule, and what ticks in a legal
state lead to (42_sequencer.md R156, 60_exceptions.md R258, 70_reset_and_hazards.md R291). -/

namespace Sys2Proof.Proofs

open Sys2Proof.Machine Sys2Proof.Laws Sys2Proof.Claims

/-! ### The B handler -/

section BHandler

variable {c : Config} {s : State}

/-- R157: the OR, then slot preparation at the idle sequencer. -/
theorem sequencerStep_at_bRun (c : Config) (position : s.seq = .bRun) :
    sequencerStep c s = prepare c { s with port := s.port ||| stagedMask c s, seq := .idle } :=
  sequencerStep_of_bRun c position

theorem stagedMask_of_marker (mask : s.nextBitmask = c.midMask) (outside : c.aTop < s.ocrb) : stagedMask c s = 0 := by
  obtain ⟨-, -, e⟩ | ⟨other, -⟩ := stagedMask_cases c s
  · exact e
  · exact absurd ⟨mask, outside⟩ other

theorem stagedMask_of_not_marker (other : ¬(s.nextBitmask = c.midMask ∧ c.aTop < s.ocrb)) :
    stagedMask c s = s.nextBitmask := by
  obtain ⟨mask, outside, -⟩ | ⟨-, e⟩ := stagedMask_cases c s
  · exact absurd ⟨mask, outside⟩ other
  · exact e

theorem stagedMask_of_zero (c : Config) (zero : s.nextBitmask = 0) : stagedMask c s = 0 := by
  obtain ⟨-, -, e⟩ | ⟨-, e⟩ := stagedMask_cases c s
  · exact e
  · rw [e, zero]

theorem sequencerStep_at_bRun_of_no_mask (c : Config) (position : s.seq = .bRun) (noMask : stagedMask c s = 0) :
    sequencerStep c s = prepare c { s with seq := .idle } := by
  rw [sequencerStep_at_bRun c position, noMask]
  rw [show s.port ||| 0 = s.port from BitVec.or_zero]

end BHandler

/-- Settles O30: the ORed mask in each of the three cases. -/
theorem bHandlerStep : Obligations.BHandlerStep := by
  intro c s position
  refine ⟨fun other => ?_, fun mask outside => ?_, fun zero => ?_⟩
  · rw [sequencerStep_at_bRun c position, stagedMask_of_not_marker other]
  · exact sequencerStep_at_bRun_of_no_mask c position (stagedMask_of_marker mask outside)
  · exact sequencerStep_at_bRun_of_no_mask c position (stagedMask_of_zero c zero)

/-! ### Slot preparation after slot preparation -/

section PrepareTimes

variable {c : Config} {s t : State} {n : Nat}

theorem prepareTimes_succ (before : prepareTimes c n s = .next t) : prepareTimes c (n + 1) s = prepare c t := by
  simp only [prepareTimes, before]

/-- The state in which entry `n` is staged and the cursor stands behind it. -/
def stagedAt (n : Nat) (sl : Slot) (s : State) : State :=
  { s with ocrb := sl.top, nextBitmask := sl.mask, index := BitVec.ofNat 8 (n + 1) }

theorem stagedAt_index_toNat (s : State) (sl : Slot) (small : n < 255) : (stagedAt n sl s).index.toNat = n + 1 := by
  rw [stagedAt, BitVec.toNat_ofNat, Nat.mod_eq_of_lt (by omega)]

/-- Slot preparation with the cursor on entry `n`. -/
theorem prepare_stages (c : Config) {sl : Slot} (cursor : s.index.toNat = n) (inUse : n < s.count.toNat)
    (slot : s.slots.get? n = some sl) : prepare c s = .next (stagedAt n sl s) := by
  subst cursor
  have advanced : s.index + 1 = BitVec.ofNat 8 (s.index.toNat + 1) := by
    apply BitVec.eq_of_toNat_eq
    rw [index_succ_toNat inUse, BitVec.toNat_ofNat, Nat.mod_eq_of_lt (by have := s.count.isLt; omega)]
  rw [prepare_of_index_lt_count c inUse slot, advanced]
  rfl

/-- The first `count` preparations stage the entries in order (R159). -/
theorem prepareTimes_stages (start : s.index = 0) (most : s.count.toNat ≤ 4) {sl : Slot} (inUse : n < s.count.toNat)
    (slot : s.slots.get? n = some sl) : prepareTimes c (n + 1) s = .next (stagedAt n sl s) := by
  induction n generalizing sl with
  | zero => exact prepare_stages c (by rw [start]; rfl) inUse slot
  | succ n ih =>
    obtain ⟨before, slotBefore⟩ := get?_isSome s.slots (i := n) (by omega)
    rw [prepareTimes_succ (ih (by omega) slotBefore)]
    exact prepare_stages c (stagedAt_index_toNat s before (by omega)) inUse slot

end PrepareTimes

/-- Settles O31: the walk by induction, and after the last entry the branch of the exhausted schedule. -/
theorem prepareWalksTheSchedule : Obligations.PrepareWalksTheSchedule := by
  intro c s start least most
  refine ⟨fun n sl inUse slot => ?_, ?_⟩
  · exact ⟨_, prepareTimes_stages start most inUse slot, stagedAt_index_toNat s sl (by omega), rfl⟩
  · obtain ⟨n, count⟩ : ∃ n, s.count.toNat = n + 1 := ⟨s.count.toNat - 1, by omega⟩
    obtain ⟨sl, slot⟩ := get?_isSome s.slots (i := n) (by omega)
    have walked := prepareTimes_stages (c := c) start most (by omega) slot
    have exhausted : (stagedAt n sl s).count ≤ (stagedAt n sl s).index := by
      rw [BitVec.le_def, stagedAt_index_toNat s sl (by omega)]
      exact count.le
    rw [count, prepareTimes_succ walked, prepare_of_count_le_index c exhausted]
    refine ⟨_, rfl, rfl, rfl, rfl, fun last e => ?_, rfl⟩
    rw [Nat.add_sub_cancel, slot] at e
    cases e
    rfl

/-! ### A handler as a run of the sequencer -/

section Runs

variable {c : Config} {s t : State} {ms : List Move}

theorem runMoves_sequencer (h : sequencerStep c s = .next t) :
    runMoves c (.sequencer :: ms) s = runMoves c ms t := by
  simp only [runMoves, moveStep, h]

theorem runMoves_of_quiet (quiet : Quiet s) : runMoves c (.sequencer :: ms) s = runMoves c ms s :=
  runMoves_sequencer (sequencerStep_of_quiet c quiet)

/-- Entry of the A handler with what it does to the fault set (R256). -/
theorem sequencerStep_enters_aHandler (c : Config) (idle : s.seq = .idle) (a : s.aPending = true) :
    ∃ fs, (s.lastPulse = false → fs = s.faults) ∧
      sequencerStep c s = .next { s with aPending := false, seq := .aStart1, faults := fs } := by
  obtain ⟨fs, -, -, inTime, entered⟩ := enter_a a
  refine ⟨fs, inTime, ?_⟩
  rw [sequencerStep_of_idle c idle, entered, eventPending, a, Bool.true_or, if_pos rfl]

theorem runMoves_of_aPrep (position : s.seq = .aPrep) (prepared : prepare c { s with seq := .idle } = .next t) :
    runMoves c (.sequencer :: ms) s = runMoves c ms t :=
  runMoves_sequencer ((sequencerStep_at_aPrep c position).trans prepared)

theorem runMoves_of_staged (position : s.seq = .aStart1) (staged : s.nextBitmask ≠ 0)
    (prepared : prepare c { s with seq := .idle } = .next t) :
    runMoves c (.sequencer :: .sequencer :: ms) s = runMoves c ms t :=
  (runMoves_sequencer (sequencerStep_at_aStart1_staged c position staged)).trans (runMoves_of_aPrep rfl prepared)

theorem runMoves_of_far {sl : Slot} (position : s.seq = .aSpin) (slot : currentSlot s = some sl)
    (far : s.tcnt.toNat + c.guard.toNat ≤ sl.top.toNat) (prepared : prepare c { s with seq := .idle } = .next t) :
    runMoves c (.sequencer :: .sequencer :: ms) s = runMoves c ms t :=
  (runMoves_sequencer (sequencerStep_at_aSpin_far c position slot far)).trans (runMoves_of_aPrep rfl prepared)

theorem runMoves_of_sentinel {sl : Slot} (position : s.seq = .aStart1) (sentinel : s.nextBitmask = 0)
    (slot : currentSlot s = some sl) (far : s.tcnt.toNat + c.guard.toNat ≤ sl.top.toNat)
    (prepared : prepare c { s with port := s.initialBitmask, newCycle := true, seq := .idle } = .next t) :
    runMoves c (.sequencer :: .sequencer :: .sequencer :: ms) s = runMoves c ms t := by
  rw [runMoves_sequencer (sequencerStep_at_aStart1_sentinel c position sentinel)]
  exact runMoves_of_far rfl slot far prepared

/-- The A event with `next_bitmask` not 0: three moves that come to slot preparation (R150, R152). -/
theorem runMoves_of_wrap (c : Config) (idle : s.seq = .idle) (a : s.aPending = true) (staged : s.nextBitmask ≠ 0) :
    ∃ fs, (s.lastPulse = false → fs = s.faults) ∧
      ∀ ms t, prepare c { s with aPending := false, faults := fs } = .next t →
        runMoves c (.sequencer :: .sequencer :: .sequencer :: ms) s = runMoves c ms t := by
  obtain ⟨fs, inTime, entered⟩ := sequencerStep_enters_aHandler c idle a
  refine ⟨fs, inTime, fun ms t prepared => ?_⟩
  rw [runMoves_sequencer entered]
  exact runMoves_of_staged rfl staged (by rw [← prepared, ← idle])

/-- The A event of a cycle start with no near slot: four moves that write the port and come to slot preparation. -/
theorem runMoves_of_cycleStart (c : Config) {sl : Slot} (idle : s.seq = .idle) (a : s.aPending = true)
    (sentinel : s.nextBitmask = 0) (slot : currentSlot s = some sl)
    (far : s.tcnt.toNat + c.guard.toNat ≤ sl.top.toNat) :
    ∃ fs, (s.lastPulse = false → fs = s.faults) ∧
      ∀ ms t, prepare c { s with aPending := false, port := s.initialBitmask, newCycle := true, faults := fs } = .next t →
        runMoves c (.sequencer :: .sequencer :: .sequencer :: .sequencer :: ms) s = runMoves c ms t := by
  obtain ⟨fs, inTime, entered⟩ := sequencerStep_enters_aHandler c idle a
  refine ⟨fs, inTime, fun ms t prepared => ?_⟩
  rw [runMoves_sequencer entered]
  exact runMoves_of_sentinel rfl sentinel slot far (by rw [← prepared, ← idle])

/-- The B event: two moves that OR the staged mask and come to slot preparation (R157). -/
theorem runMoves_of_bEvent (c : Config) (idle : s.seq = .idle) (a : s.aPending = false) (b : s.bPending = true)
    (prepared : prepare c { s with bPending := false, port := s.port ||| stagedMask c s } = .next t) :
    runMoves c (.sequencer :: .sequencer :: ms) s = runMoves c ms t := by
  rw [runMoves_sequencer (sequencerStep_at_idle_bPending c idle a b), runMoves_sequencer]
  rw [sequencerStep_at_bRun c rfl, ← prepared, ← idle]
  rfl

end Runs

/-- Settles O32: the three moves come to slot preparation, which stages the slot under the cursor. -/
theorem wrapOnlyPrepares : Obligations.WrapOnlyPrepares := by
  intro c s sl idle a staged inUse slot
  obtain ⟨fs, inTime, run⟩ := runMoves_of_wrap c idle a staged
  exact ⟨_, run [] _ (prepare_of_index_lt_count c inUse slot), rfl, inTime⟩

/-- Settles O33: the four moves come to slot preparation, which stages the slot under the cursor. -/
theorem cycleStartStagesFirstSlot : Obligations.CycleStartStagesFirstSlot := by
  intro c s sl idle a sentinel inUse slot far
  obtain ⟨fs, inTime, run⟩ := runMoves_of_cycleStart c idle a sentinel slot far
  exact ⟨_, run [] _ (prepare_of_index_lt_count c inUse slot), rfl, inTime⟩

/-! ### Ticks -/

section Ticks

variable {c : Config} {s : State}

/-- Ticks write the counter and the latches, and nothing else. -/
theorem ticks_frame (c : Config) (n : Nat) (s : State) :
    ticks c n s = { s with
      tcnt := (ticks c n s).tcnt, aPending := (ticks c n s).aPending, bPending := (ticks c n s).bPending } := by
  induction n with
  | zero => rfl
  | succ n ih =>
    rw [ticks, tick_frame, ih]

theorem sequencerEnabled_of_due {sl : Slot} (position : s.seq = .aSpinWait) (slot : currentSlot s = some sl)
    (due : sl.top ≤ s.tcnt) : sequencerEnabled s := by
  rw [sequencerEnabled, position]
  exact ⟨sl, slot, due⟩

theorem sequencerEnabled_ticks_of_due {sl : Slot} {n : Nat} (position : s.seq = .aSpinWait)
    (slot : currentSlot s = some sl) (due : sl.top ≤ (ticks c n s).tcnt) : sequencerEnabled (ticks c n s) := by
  rw [ticks_frame]
  exact sequencerEnabled_of_due position slot due

end Ticks

/-- Settles O34: the awaited deadline lies below `A_TOP`, so the counter comes to it before it clears. -/
theorem spinWaitEnds : Obligations.SpinWaitEnds := by
  intro s inv position
  obtain ⟨sl, slot, below⟩ := slot_of_aSpinWait inv position
  have within : s.tcnt.toNat ≤ 64000 := inv.counter
  have reachable : sl.top.toNat < 64000 := below
  have count : (ticks chip (sl.top.toNat - s.tcnt.toNat) s).tcnt.toNat =
      s.tcnt.toNat + (sl.top.toNat - s.tcnt.toNat) := by
    rw [ticks_tcnt_toNat inv.counter]
    exact Nat.mod_eq_of_lt (show _ < 64001 by omega)
  refine ⟨sl.top.toNat - s.tcnt.toNat, by omega, sequencerEnabled_ticks_of_due position slot ?_, count⟩
  rw [BitVec.le_def, count]
  omega

/-- Settles O43: the tick that latches A clears the count, and no legal `OCRB` is 0. -/
theorem noTickSetsBothLatches : Obligations.NoTickSetsBothLatches := by
  rintro s inv a b ⟨setA, setB⟩
  have top : s.tcnt = chip.aTop := by
    rw [tick_aPending, a, Bool.false_or] at setA
    exact of_decide_eq_true setA
  have hit : (tick chip s).tcnt = s.ocrb := by
    rw [tick_bPending, b, Bool.false_or] at setB
    exact of_decide_eq_true setB
  rw [tick_tcnt_at_top top] at hit
  exact inv.compareB hit.symm

/-- The A event at an idle sequencer with the sentinel up: two moves start the cycle (R150). -/
theorem runMoves_starts_cycle (c : Config) {s : State} (idle : s.seq = .idle) (a : s.aPending = true)
    (sentinel : s.nextBitmask = 0) (inTime : s.lastPulse = false) :
    runMoves c [.sequencer, .sequencer] s =
      .next { s with aPending := false, port := s.initialBitmask, newCycle := true, seq := .aSpin } := by
  obtain ⟨fs, same, entered⟩ := sequencerStep_enters_aHandler c idle a
  rw [same inTime] at entered
  rw [runMoves_sequencer entered]
  exact runMoves_sequencer (sequencerStep_at_aStart1_sentinel c rfl sentinel)

/-- Settles O56: the first 64000 ticks count to `A_TOP`, the next one latches A and clears the count. -/
theorem firstAEvent : Obligations.FirstAEvent := by
  have counted : ∀ n ≤ 64000,
      (ticks chip n State.reset).tcnt.toNat = n ∧ (ticks chip n State.reset).aPending = false :=
    fun n le => ticks_from_zero rfl le
  have top : (ticks chip 64000 State.reset).tcnt = chip.aTop := BitVec.eq_of_toNat_eq (counted 64000 le_rfl).1
  have event : (ticks chip 64001 State.reset).aPending = true := tick_aPending_at_top top
  have frame := ticks_frame chip 64001 State.reset
  refine ⟨fun n le => (counted n le).symm, event, tick_tcnt_at_top top, ?_⟩
  rw [event] at frame
  rw [frame, runMoves_starts_cycle chip rfl rfl rfl rfl]
  exact ⟨_, rfl, rfl, rfl, rfl⟩

end Sys2Proof.Proofs
end

