-- ==== Sys2Proof/Proofs/Schedule.lean ====
section
/-! PROOFS. A rebuild's schedule (40_gamma_scheduler.md section 2): the walk over the sorted channels read as the list of the
levels in use, and from that the shape of the slots, their number, and the channels that have none. -/

namespace Sys2Proof.Proofs

open Sys2Proof.Machine Sys2Proof.Laws Sys2Proof.Claims

/-! ### Levels and masks -/

section Levels

variable {c : Config} {chs : Channels}

theorem eligible_iff_toNat (b : Byte) : eligible b = true ↔ 0 < b.toNat ∧ b.toNat < 255 := by
  rw [eligible_iff, BitVec.lt_def, BitVec.lt_def]
  rfl

theorem mem_channelList (k : Chan) : k ∈ channelList := by
  cases k <;> simp [channelList]

theorem mem_levelsIn {lo hi b : Nat} :
    b ∈ levelsIn chs lo hi ↔ lo ≤ b ∧ b < hi ∧ ∃ k, (brightnessOf chs k).toNat = b := by
  simp only [levelsIn, List.mem_filter, List.mem_range'_1, List.any_eq_true, beq_iff_eq, mem_channelList, true_and]
  constructor
  · rintro ⟨⟨low, high⟩, k, at_b⟩
    exact ⟨low, by omega, k, at_b⟩
  · rintro ⟨low, high, k, at_b⟩
    exact ⟨⟨low, by omega⟩, k, at_b⟩

/-- The levels a slot is made for are those of the eligible channels (R112). -/
theorem mem_levelsIn_all {b : Nat} :
    b ∈ levelsIn chs 1 255 ↔ ∃ k, eligible (brightnessOf chs k) = true ∧ (brightnessOf chs k).toNat = b := by
  rw [mem_levelsIn]
  constructor
  · rintro ⟨low, high, k, rfl⟩
    exact ⟨k, (eligible_iff_toNat _).mpr ⟨low, high⟩, rfl⟩
  · rintro ⟨k, inRange, rfl⟩
    obtain ⟨low, high⟩ := (eligible_iff_toNat _).mp inRange
    exact ⟨low, high, k, rfl⟩

theorem levelsIn_rising (chs : Channels) (lo hi : Nat) : (levelsIn chs lo hi).Pairwise (· < ·) :=
  List.Pairwise.filter _ List.pairwise_lt_range'

theorem levelsIn_nodup (chs : Channels) (lo hi : Nat) : (levelsIn chs lo hi).Nodup :=
  (levelsIn_rising chs lo hi).imp Nat.ne_of_lt

theorem levelsIn_append (chs : Channels) {lo mid hi : Nat} (low : lo ≤ mid) (high : mid ≤ hi) :
    levelsIn chs lo mid ++ levelsIn chs mid hi = levelsIn chs lo hi := by
  have ranges := List.range'_append_1 (s := lo) (m := mid - lo) (n := hi - mid)
  rw [show lo + (mid - lo) = mid by omega, show mid - lo + (hi - mid) = hi - lo by omega] at ranges
  rw [levelsIn, levelsIn, levelsIn, ← List.filter_append, ranges]

/-- Channel `k` has its bit in the masks of level `b` (R113). -/
abbrev SetAt (chs : Channels) (b : Nat) (k : Chan) : Prop :=
  0 < (brightnessOf chs k).toNat ∧ (brightnessOf chs k).toNat < 255 ∧ (brightnessOf chs k).toNat ≤ b

/-- `maskUpTo` over some of the channels: the walk's running mask (R110). -/
def maskIn (c : Config) (chs : Channels) (ks : List Chan) (b : Nat) : Byte :=
  ks.foldl (fun m k => if SetAt chs b k then m ||| c.chMask k else m) 0

theorem maskUpTo_eq_maskIn (c : Config) (chs : Channels) (b : Nat) : maskUpTo c chs b = maskIn c chs channelList b :=
  rfl

theorem maskIn_concat (c : Config) (chs : Channels) (ks : List Chan) (k : Chan) (b : Nat) :
    maskIn c chs (ks ++ [k]) b = if SetAt chs b k then maskIn c chs ks b ||| c.chMask k else maskIn c chs ks b := by
  rw [maskIn, List.foldl_append]
  rfl

/-- A walk over `ks` that sets the masks of the channels where `lit` holds. -/
theorem getLsbD_foldl_set (lit : Chan → Prop) [DecidablePred lit] (mask : Chan → Byte) (ks : List Chan) (m : Byte)
    (i : Nat) :
    (ks.foldl (fun m k => if lit k then m ||| mask k else m) m).getLsbD i =
      (m.getLsbD i || ks.any fun k => decide (lit k) && (mask k).getLsbD i) := by
  induction ks generalizing m with
  | nil => simp
  | cons k ks ih =>
    rw [List.foldl_cons, ih]
    by_cases h : lit k
    · simp [h, Bool.or_assoc]
    · simp [h]

theorem getLsbD_maskIn (c : Config) (chs : Channels) (ks : List Chan) (b i : Nat) :
    (maskIn c chs ks b).getLsbD i = true ↔ ∃ k ∈ ks, SetAt chs b k ∧ (c.chMask k).getLsbD i = true := by
  rw [maskIn, getLsbD_foldl_set]
  simp

theorem getLsbD_maskUpTo (c : Config) (chs : Channels) (b i : Nat) :
    (maskUpTo c chs b).getLsbD i = true ↔ ∃ k, SetAt chs b k ∧ (c.chMask k).getLsbD i = true := by
  rw [maskUpTo_eq_maskIn, getLsbD_maskIn]
  simp only [mem_channelList, true_and]

/-- The order of the channels does not matter to the mask. -/
theorem maskIn_eq_maskUpTo {ks : List Chan} (all : ∀ k, k ∈ ks) (b : Nat) : maskIn c chs ks b = maskUpTo c chs b := by
  refine BitVec.eq_of_getLsbD_eq fun i _ => ?_
  rw [Bool.eq_iff_iff, getLsbD_maskIn, getLsbD_maskUpTo]
  simp only [all, true_and]

theorem gammaLookup_eq {b : Byte} (pos : 0 < b.toNat) : gammaLookup c b = c.gamma (BitVec.ofNat 8 (b.toNat - 1)) := by
  have entry : b - 1 = BitVec.ofNat 8 (b.toNat - 1) := by
    apply BitVec.eq_of_toNat_eq
    rw [byte_sub_one_toNat, BitVec.toNat_ofNat]
    omega
  rw [gammaLookup, romRead, entry]

end Levels

/-! ### The walk as a list of levels, the latest first -/

/-- The slots of the levels `bs`, the latest first, with the marker where the walk crosses `MID_LEVEL` (R110, step 2). -/
def walkSlots (c : Config) (slot : Nat → Slot) : List Nat → List Slot
  | [] => []
  | b :: bs =>
    slot b ::
      if bs.headD 0 < c.midLevel.toNat ∧ c.midLevel.toNat ≤ b then marker c :: walkSlots c slot bs
      else walkSlots c slot bs

/-- The same with the marker last where the walk crossed nothing (R110, step 3). -/
def closedSlots (c : Config) (slot : Nat → Slot) (bs : List Nat) : List Slot :=
  if bs.headD 0 < c.midLevel.toNat then marker c :: walkSlots c slot bs else walkSlots c slot bs

/-- `levelSlot` after the channels `ks` of the walk. -/
def levelSlotIn (c : Config) (chs : Channels) (ks : List Chan) (b : Nat) : Slot :=
  ⟨c.gamma (BitVec.ofNat 8 (b - 1)), maskIn c chs ks b⟩

/-- The walk's variables after the channels `ks`, read as the levels `bs` in use, the latest first. -/
structure WalkReads (c : Config) (chs : Channels) (ks : List Chan) (bs : List Nat) (w : Walk) : Prop where
  falling : bs.Pairwise (· > ·)
  mem_iff : ∀ b, b ∈ bs ↔ ∃ k ∈ ks, eligible (brightnessOf chs k) = true ∧ (brightnessOf chs k).toNat = b
  last : w.last.toNat = bs.headD 0
  run : ∀ b, w.last.toNat ≤ b → w.run = maskIn c chs ks b
  emitted : w.emitted = walkSlots c (levelSlotIn c chs ks) bs

section WalkLemmas

variable {c : Config} {chs : Channels} {ks : List Chan} {k : Chan} {bs : List Nat} {w : Walk}

theorem walkSlots_congr {slot slot' : Nat → Slot} (same : ∀ b ∈ bs, slot b = slot' b) :
    walkSlots c slot bs = walkSlots c slot' bs := by
  induction bs with
  | nil => rfl
  | cons b bs ih =>
    rw [walkSlots, walkSlots, same b List.mem_cons_self, ih fun a mem => same a (List.mem_cons_of_mem b mem)]

theorem crossMid_last (b : Byte) : (crossMid c b w).last = w.last := by
  unfold crossMid
  split <;> rfl

theorem crossMid_run (b : Byte) : (crossMid c b w).run = w.run := by
  unfold crossMid
  split <;> rfl

theorem crossMid_emitted (b : Byte) :
    (crossMid c b w).emitted =
      if w.last.toNat < c.midLevel.toNat ∧ c.midLevel.toNat ≤ b.toNat then marker c :: w.emitted else w.emitted := by
  simp only [← BitVec.lt_def, ← BitVec.le_def]
  unfold crossMid
  split <;> rfl

theorem crossMid_of_last_eq {b : Byte} (same : w.last = b) : crossMid c b w = w := by
  rw [crossMid, if_neg]
  rintro ⟨below, above⟩
  rw [same] at below
  exact BitVec.not_lt.mpr above below

/-- No level of the walk lies above the last one. -/
theorem WalkReads.le_last (reads : WalkReads c chs ks bs w) : ∀ b ∈ bs, b ≤ w.last.toNat := by
  obtain ⟨falling, -, last, -, -⟩ := reads
  rw [last]
  cases bs with
  | nil => simp
  | cons a as =>
    rw [List.pairwise_cons] at falling
    intro b mem
    rw [List.mem_cons] at mem
    obtain rfl | mem := mem
    · exact le_rfl
    · exact (falling.1 b mem).le

/-- The last level is that of some channel visited, or 0. -/
theorem WalkReads.last_le (reads : WalkReads c chs ks bs w) {b : Byte} (above : ∀ j ∈ ks, brightnessOf chs j ≤ b) :
    w.last.toNat ≤ b.toNat := by
  rw [reads.last]
  cases bs with
  | nil => exact Nat.zero_le _
  | cons a as =>
    obtain ⟨j, visited, -, rfl⟩ := (reads.mem_iff a).mp List.mem_cons_self
    exact above j visited

/-- A channel at 0 or 255 leaves the walk as it is (R112). -/
theorem WalkReads.visit_extreme (reads : WalkReads c chs ks bs w) (extreme : eligible (brightnessOf chs k) = false) :
    WalkReads c chs (ks ++ [k]) bs (visitChannel c chs w k) := by
  have out : ¬(0 < (brightnessOf chs k).toNat ∧ (brightnessOf chs k).toNat < 255) := by
    rw [← eligible_iff_toNat, extreme]
    exact Bool.false_ne_true
  have masks : maskIn c chs (ks ++ [k]) = maskIn c chs ks := by
    funext b
    rw [maskIn_concat, if_neg fun isSet => out ⟨isSet.1, isSet.2.1⟩]
  have slots : levelSlotIn c chs (ks ++ [k]) = levelSlotIn c chs ks := by
    funext b
    rw [levelSlotIn, masks, levelSlotIn]
  rw [visitChannel, extreme, if_neg Bool.false_ne_true]
  refine ⟨reads.falling, fun b => ?_, reads.last, masks ▸ reads.run, slots ▸ reads.emitted⟩
  rw [reads.mem_iff]
  simp [extreme]

/-- Below the level of the new channel no mask changes. -/
theorem levelSlotIn_concat_of_lt {b : Nat} (below : b < (brightnessOf chs k).toNat) :
    levelSlotIn c chs (ks ++ [k]) b = levelSlotIn c chs ks b := by
  rw [levelSlotIn, maskIn_concat, if_neg fun isSet => absurd isSet.2.2 (Nat.not_le.mpr below), levelSlotIn]

/-- From the level of the new channel on its bit is set. -/
theorem maskIn_concat_of_le (inRange : eligible (brightnessOf chs k) = true) {b : Nat}
    (above : (brightnessOf chs k).toNat ≤ b) : maskIn c chs (ks ++ [k]) b = maskIn c chs ks b ||| c.chMask k := by
  obtain ⟨pos, lt⟩ := (eligible_iff_toNat _).mp inRange
  rw [maskIn_concat, if_pos ⟨pos, lt, above⟩]

/-- The slot of the new channel's level holds the running mask. -/
theorem levelSlotIn_concat_self (reads : WalkReads c chs ks bs w) (inRange : eligible (brightnessOf chs k) = true)
    (above : w.last.toNat ≤ (brightnessOf chs k).toNat) :
    levelSlotIn c chs (ks ++ [k]) (brightnessOf chs k).toNat =
      ⟨gammaLookup c (brightnessOf chs k), w.run ||| c.chMask k⟩ := by
  rw [levelSlotIn, maskIn_concat_of_le inRange le_rfl, ← reads.run _ above,
    gammaLookup_eq ((eligible_iff_toNat _).mp inRange).1]

/-- The levels after one channel more. -/
theorem exists_level_concat (inRange : eligible (brightnessOf chs k) = true) (b : Nat) :
    (∃ j ∈ ks ++ [k], eligible (brightnessOf chs j) = true ∧ (brightnessOf chs j).toNat = b) ↔
      (∃ j ∈ ks, eligible (brightnessOf chs j) = true ∧ (brightnessOf chs j).toNat = b) ∨
        (brightnessOf chs k).toNat = b := by
  simp only [List.mem_append, List.mem_singleton, or_and_right, exists_or, exists_eq_left, inRange, true_and]

/-- A channel above every level so far opens a slot (R110, step 2b). -/
theorem WalkReads.visit_rise (reads : WalkReads c chs ks bs w) (inRange : eligible (brightnessOf chs k) = true)
    (rise : w.last.toNat < (brightnessOf chs k).toNat) :
    WalkReads c chs (ks ++ [k]) ((brightnessOf chs k).toNat :: bs) (visitChannel c chs w k) := by
  have below : ∀ b ∈ bs, b < (brightnessOf chs k).toNat := fun b mem => (reads.le_last b mem).trans_lt rise
  have old : walkSlots c (levelSlotIn c chs (ks ++ [k])) bs = w.emitted := by
    rw [reads.emitted]
    exact walkSlots_congr fun b mem => levelSlotIn_concat_of_lt (below b mem)
  rw [visitChannel, if_pos inRange, visitLevel, if_pos (by rw [crossMid_last]; exact rise)]
  refine ⟨List.pairwise_cons.mpr ⟨below, reads.falling⟩, fun b => ?_, rfl, fun b le => ?_, ?_⟩
  · rw [List.mem_cons, reads.mem_iff, exists_level_concat inRange, or_comm, @eq_comm _ b]
  · rw [maskIn_concat_of_le inRange le, ← reads.run b (rise.le.trans le), crossMid_run]
    rfl
  · rw [walkSlots, old, ← reads.last, levelSlotIn_concat_self reads inRange rise.le, crossMid_emitted, crossMid_run]
    rfl

/-- A channel at the last level widens its slot's mask (R110, step 2c). -/
theorem WalkReads.visit_same (reads : WalkReads c chs ks bs w) (inRange : eligible (brightnessOf chs k) = true)
    (same : w.last = brightnessOf chs k) : WalkReads c chs (ks ++ [k]) bs (visitChannel c chs w k) := by
  have level : (brightnessOf chs k).toNat = w.last.toNat := congrArg BitVec.toNat same.symm
  rw [visitChannel, if_pos inRange, crossMid_of_last_eq same, visitLevel,
    if_neg (by rw [same]; exact BitVec.lt_irrefl _)]
  cases bs with
  | nil =>
    have zero : w.last.toNat = 0 := reads.last
    have pos := ((eligible_iff_toNat _).mp inRange).1
    omega
  | cons a as =>
    have top : a = (brightnessOf chs k).toNat := by rw [level, reads.last]; rfl
    have falling := List.pairwise_cons.mp reads.falling
    refine ⟨reads.falling, fun b => ?_, reads.last, fun b le => ?_, ?_⟩
    · rw [reads.mem_iff, exists_level_concat inRange, ← top]
      refine ⟨Or.inl, fun found => found.elim id ?_⟩
      rintro rfl
      exact (reads.mem_iff a).mp List.mem_cons_self
    · rw [maskIn_concat_of_le inRange (level.le.trans le), ← reads.run b le]
      rfl
    · have old : walkSlots c (levelSlotIn c chs (ks ++ [k])) as = walkSlots c (levelSlotIn c chs ks) as :=
        walkSlots_congr fun b mem => levelSlotIn_concat_of_lt (top ▸ falling.1 b mem)
      rw [reads.emitted, walkSlots, walkSlots, old, top, levelSlotIn_concat_self reads inRange level.ge,
        gammaLookup_eq ((eligible_iff_toNat _).mp inRange).1]
      rfl

/-- The walk over channels in rising order reads as their levels. -/
theorem exists_walkReads (c : Config) (chs : Channels) (ks : List Chan)
    (sorted : ks.Pairwise fun a b => brightnessOf chs a ≤ brightnessOf chs b) :
    ∃ bs, WalkReads c chs ks bs (ks.foldl (visitChannel c chs) ⟨0, 0, []⟩) := by
  induction ks using List.reverseRecOn with
  | nil => exact ⟨[], List.Pairwise.nil, by simp, rfl, fun _ _ => rfl, rfl⟩
  | append_singleton ks k ih =>
    obtain ⟨sortedBefore, -, above⟩ := List.pairwise_append.mp sorted
    obtain ⟨bs, reads⟩ := ih sortedBefore
    have le := reads.last_le fun j mem => above j mem k List.mem_cons_self
    rw [List.foldl_append, List.foldl_cons, List.foldl_nil]
    cases inRange : eligible (brightnessOf chs k) with
    | false => exact ⟨bs, reads.visit_extreme inRange⟩
    | true =>
      obtain rise | same := le.lt_or_eq
      · exact ⟨_, reads.visit_rise inRange rise⟩
      · exact ⟨bs, reads.visit_same inRange (BitVec.eq_of_toNat_eq same)⟩

end WalkLemmas

/-! ### A rebuild's slots from the levels -/

section Slots

variable {c : Config} {chs : Channels}

/-- A rebuild's slots for any configuration, also one without pre-wrap levels. -/
theorem builtSlots_eq_closedSlots (c : Config) (chs : Channels) :
    builtSlots c chs = (closedSlots c (levelSlot c chs) (levelsIn chs 1 255).reverse).reverse := by
  obtain ⟨bs, reads⟩ := exists_walkReads c chs (sortedChannels chs) (sorted_sortedChannels chs)
  have levels : bs = (levelsIn chs 1 255).reverse := by
    refine reads.falling.eq_of_mem_iff (List.pairwise_reverse.mpr (levelsIn_rising chs 1 255)) fun b => ?_
    rw [List.mem_reverse, mem_levelsIn_all, reads.mem_iff]
    simp only [mem_sortedChannels, true_and]
  have slots : levelSlotIn c chs (sortedChannels chs) = levelSlot c chs := by
    funext b
    rw [levelSlotIn, maskIn_eq_maskUpTo (mem_sortedChannels chs), levelSlot]
  rw [builtSlots, ← levels, ← slots, closeWalk, closedSlots, ← reads.emitted, ← reads.last]
  simp only [BitVec.lt_def]

/-- Slots of pre-wrap levels alone: no marker among them. -/
theorem walkSlots_of_below {slot : Nat → Slot} {bs : List Nat} (below : ∀ b ∈ bs, b < c.midLevel.toNat) :
    walkSlots c slot bs = bs.map slot := by
  induction bs with
  | nil => rfl
  | cons b bs ih =>
    have high : ¬(bs.headD 0 < c.midLevel.toNat ∧ c.midLevel.toNat ≤ b) :=
      fun crosses => Nat.not_lt.mpr crosses.2 (below b List.mem_cons_self)
    rw [walkSlots, if_neg high, ih fun a mem => below a (List.mem_cons_of_mem b mem), List.map_cons]

/-- With falling levels the marker stands between those at or above `MID_LEVEL` and those below. -/
theorem closedSlots_append (level : 0 < c.midLevel.toNat) {slot : Nat → Slot} {post pre : List Nat}
    (above : ∀ b ∈ post, c.midLevel.toNat ≤ b) (below : ∀ b ∈ pre, b < c.midLevel.toNat) :
    closedSlots c slot (post ++ pre) = post.map slot ++ marker c :: pre.map slot := by
  induction post with
  | nil =>
    have head : pre.headD 0 < c.midLevel.toNat := by
      cases pre with
      | nil => exact level
      | cons b bs => exact below b List.mem_cons_self
    rw [List.nil_append, closedSlots, if_pos head, walkSlots_of_below below, List.map_nil, List.nil_append]
  | cons b bs ih =>
    have high : c.midLevel.toNat ≤ b := above b List.mem_cons_self
    have step : closedSlots c slot (b :: bs ++ pre) = slot b :: closedSlots c slot (bs ++ pre) := by
      rw [closedSlots, List.cons_append, List.headD_cons, if_neg (Nat.not_lt.mpr high), walkSlots, closedSlots]
      simp only [high, and_true]
    rw [step, ih fun a mem => above a (List.mem_cons_of_mem b mem), List.map_cons, List.cons_append]

theorem midLevel_le (c : Config) : c.midLevel.toNat ≤ 255 :=
  Nat.le_of_lt_succ c.midLevel.isLt

/-- The walk's slots are the schedule, level by level (R110 to R116). -/
theorem builtSlots_eq_schedule (level : 0 < c.midLevel.toNat) (chs : Channels) :
    builtSlots c chs = schedule c chs := by
  rw [builtSlots_eq_closedSlots, ← levelsIn_append chs level (midLevel_le c), List.reverse_append,
    closedSlots_append level, schedule]
  · simp [marker]
  · intro b mem
    exact (mem_levelsIn.mp (List.mem_reverse.mp mem)).1
  · intro b mem
    exact (mem_levelsIn.mp (List.mem_reverse.mp mem)).2.1

theorem mem_walkSlots {slot : Nat → Slot} {bs : List Nat} {sl : Slot} (mem : sl ∈ walkSlots c slot bs) :
    sl = marker c ∨ ∃ b, sl = slot b := by
  induction bs with
  | nil => cases mem
  | cons b bs ih =>
    rw [walkSlots, List.mem_cons] at mem
    obtain rfl | mem := mem
    · exact .inr ⟨b, rfl⟩
    · split at mem
      · obtain e | mem := List.mem_cons.mp mem
        · exact .inl e
        · exact ih mem
      · exact ih mem

/-- Every slot but the marker is that of a level. -/
theorem mem_builtSlots {sl : Slot} (mem : sl ∈ builtSlots c chs) : sl = marker c ∨ ∃ b, sl = levelSlot c chs b := by
  rw [builtSlots_eq_closedSlots, List.mem_reverse, closedSlots] at mem
  split at mem
  · obtain e | mem := List.mem_cons.mp mem
    · exact .inl e
    · exact mem_walkSlots mem
  · exact mem_walkSlots mem

end Slots

/-! ### The number of slots -/

section Count

variable {c : Config}

theorem length_levelsIn_le (chs : Channels) : (levelsIn chs 1 255).length ≤ 3 := by
  have known : levelsIn chs 1 255 ⊆ channelList.map fun k => (brightnessOf chs k).toNat := by
    intro b mem
    obtain ⟨-, -, k, rfl⟩ := mem_levelsIn.mp mem
    exact List.mem_map_of_mem (mem_channelList k)
  exact (List.subperm_of_subset (levelsIn_nodup chs 1 255) known).length_le

theorem length_schedule (level : 0 < c.midLevel.toNat) (chs : Channels) :
    (schedule c chs).length = (levelsIn chs 1 255).length + 1 := by
  rw [← levelsIn_append chs (lo := 1) level (midLevel_le c), schedule]
  simp only [List.length_append, List.length_cons, List.length_map]
  omega

theorem length_schedule_le (level : 0 < c.midLevel.toNat) (chs : Channels) : (schedule c chs).length ≤ 4 := by
  have := length_levelsIn_le chs
  rw [length_schedule level]
  omega

theorem rebuild_slots (level : 0 < c.midLevel.toNat) (s : State) :
    (rebuild c s).slots = s.slots.overlay (schedule c s.ch) := by
  rw [← builtSlots_eq_schedule level]
  rfl

theorem rebuild_count (level : 0 < c.midLevel.toNat) (s : State) :
    (rebuild c s).count.toNat = (schedule c s.ch).length := by
  have := length_schedule_le level s.ch
  rw [← builtSlots_eq_schedule level] at this ⊢
  exact Nat.mod_eq_of_lt (by omega)

theorem get?_overlay_of_lt (sl : Slots) {out : List Slot} (most : out.length ≤ 4) {i : Nat} (inUse : i < out.length) :
    (sl.overlay out).get? i = out[i]? := by
  rw [get?_overlay sl out (by omega), if_pos inUse]

theorem get?_overlay_of_le (sl : Slots) {out : List Slot} {i : Nat} (past : out.length ≤ i) :
    (sl.overlay out).get? i = sl.get? i := by
  by_cases entry : i < 4
  · rw [get?_overlay sl out entry, if_neg (Nat.not_lt.mpr past)]
  · rw [(get?_eq_none_iff _ i).mpr (by omega), (get?_eq_none_iff _ i).mpr (by omega)]

end Count

/-- Settles O23: the walk's slots are the schedule, which has at most four entries. -/
theorem rebuildWritesTheSchedule : Obligations.RebuildWritesTheSchedule := by
  intro c s level
  refine ⟨rebuild_count level s, fun i inUse => ?_, fun i past => ?_,
    fun i hi => builtInitialMask_getLsbD c s.ch hi, rfl, rfl, rfl⟩
  · rw [rebuild_slots level, get?_overlay_of_lt s.slots (length_schedule_le level s.ch) inUse]
  · rw [rebuild_slots level, get?_overlay_of_le s.slots past]

/-- The levels in use are the distinct brightness values in `[1, 254]`. -/
theorem length_levelsIn_eq_dedup (chs : Channels) :
    (levelsIn chs 1 255).length =
      ((channelList.map (brightnessOf chs)).filter fun b => 0 < b && b < 255).dedup.length := by
  rw [← List.length_map BitVec.toNat]
  refine List.Perm.length_eq ((List.perm_ext_iff_of_nodup ?_ ?_).mpr fun b => ?_)
  · exact levelsIn_nodup chs 1 255
  · exact (List.nodup_dedup _).map fun _ _ => BitVec.eq_of_toNat_eq
  · rw [mem_levelsIn_all, List.mem_map]
    simp only [List.mem_dedup, List.mem_filter, List.mem_map, mem_channelList, true_and]
    constructor
    · rintro ⟨k, inRange, at_b⟩
      exact ⟨_, ⟨⟨k, rfl⟩, inRange⟩, at_b⟩
    · rintro ⟨_, ⟨⟨k, rfl⟩, inRange⟩, at_b⟩
      exact ⟨k, inRange, at_b⟩

/-- Settles O25: the marker, and one slot for each of at most three levels. -/
theorem rebuildCount : Obligations.RebuildCount := by
  intro s
  have level : 0 < chip.midLevel.toNat := by decide
  have most := length_levelsIn_le s.ch
  rw [rebuild_count level, length_schedule level, ← length_levelsIn_eq_dedup]
  omega

/-! ### The shape of the slots -/

section Shape

variable {c : Config} {chs : Channels}

theorem lt_of_consecutive_lt {g : Nat → Word} {lo hi : Nat} (rises : ∀ i, lo ≤ i → i + 1 < hi → g i < g (i + 1))
    {i j : Nat} (low : lo ≤ i) (less : i < j) (high : j < hi) : g i < g j := by
  induction j, less using Nat.le_induction with
  | base => exact rises i low high
  | succ j less ih => exact BitVec.lt_trans (ih (by omega)) (rises j (by omega) high)

theorem gamma_lt_of_preWrap (admitted : c.Admitted) {a b : Nat} (low : 1 ≤ a) (less : a < b)
    (high : b < c.midLevel.toNat) : c.gamma (BitVec.ofNat 8 (a - 1)) < c.gamma (BitVec.ofNat 8 (b - 1)) := by
  obtain ⟨-, ⟨preWrap, -, -⟩, -⟩ := admitted
  have bound := midLevel_le c
  refine lt_of_consecutive_lt (lo := 0) (hi := c.midLevel.toNat - 1) (g := fun i => c.gamma (BitVec.ofNat 8 i))
    (fun i _ lt => ?_) (Nat.zero_le _) (by omega) (by omega)
  exact preWrap i (by omega) (by omega)

theorem gamma_lt_of_postWrap (admitted : c.Admitted) {a b : Nat} (pos : 1 ≤ a) (low : c.midLevel.toNat ≤ a)
    (less : a < b) (high : b < 255) : c.gamma (BitVec.ofNat 8 (a - 1)) < c.gamma (BitVec.ofNat 8 (b - 1)) := by
  obtain ⟨-, ⟨-, postWrap, -⟩, -⟩ := admitted
  refine lt_of_consecutive_lt (lo := c.midLevel.toNat - 1) (hi := 254) (g := fun i => c.gamma (BitVec.ofNat 8 i))
    (fun i ge lt => ?_) (by omega) (by omega) (by omega)
  exact postWrap i (by omega) (by omega)

/-- The masks grow with the level (R113). -/
theorem maskUpTo_and_of_le (c : Config) (chs : Channels) {a b : Nat} (le : a ≤ b) :
    maskUpTo c chs a &&& maskUpTo c chs b = maskUpTo c chs a := by
  refine BitVec.eq_of_getLsbD_eq fun i _ => ?_
  rw [BitVec.getLsbD_and, Bool.and_eq_left_iff_imp, getLsbD_maskUpTo, getLsbD_maskUpTo]
  rintro ⟨k, ⟨pos, lt, upTo⟩, bit⟩
  exact ⟨k, ⟨pos, lt, upTo.trans le⟩, bit⟩

/-- A channel's bit is in a level's mask just where the channel is lit at that level. -/
theorem maskUpTo_and_chMask_eq_zero_iff (masks : c.MasksAdmitted) (chs : Channels) (b : Nat) (k : Chan) :
    maskUpTo c chs b &&& c.chMask k = 0 ↔ ¬SetAt chs b k := by
  obtain ⟨i, hi, bit⟩ := chMask_eq_twoPow masks k
  rw [bit, and_twoPow_eq_zero_iff _ hi, ← Bool.not_eq_true, getLsbD_maskUpTo]
  simp only [chMask_getLsbD_eq_decide masks hi bit, decide_eq_true_eq, exists_eq_right]

/-- The slot of a level in use is a channel slot: its deadline is in reach and its mask is not 0 (R9 (d), R118). -/
theorem levelSlot_legal (admitted : c.Admitted) {b : Nat} (mem : b ∈ levelsIn chs 1 255) :
    1#16 ≤ (levelSlot c chs b).top ∧ (levelSlot c chs b).top < c.aTop ∧ (levelSlot c chs b).mask ≠ 0 := by
  obtain ⟨low, high, k, at_b⟩ := mem_levelsIn.mp mem
  obtain ⟨least, most⟩ := admitted.2.1.2.2 (b - 1) (by omega)
  refine ⟨least, most, fun zero => ?_⟩
  have noBit : maskUpTo c chs b &&& c.chMask k = 0 := by
    rw [show maskUpTo c chs b = 0 from zero]
    exact BitVec.zero_and
  exact (maskUpTo_and_chMask_eq_zero_iff admitted.1 chs b k).mp noBit ⟨by omega, by omega, by omega⟩

theorem levelsIn_eq_nil_iff {lo hi : Nat} :
    levelsIn chs lo hi = [] ↔ ∀ k, ¬(lo ≤ (brightnessOf chs k).toNat ∧ (brightnessOf chs k).toNat < hi) := by
  rw [List.eq_nil_iff_forall_not_mem]
  constructor
  · intro unused k inRange
    exact unused _ (mem_levelsIn.mpr ⟨inRange.1, inRange.2, k, rfl⟩)
  · intro unused b mem
    obtain ⟨low, high, k, rfl⟩ := mem_levelsIn.mp mem
    exact unused k ⟨low, high⟩

end Shape

/-- Settles O26: the two halves of the schedule, each rising with the gamma table, and the masks rising with the level
across both. -/
theorem scheduleShape : Obligations.ScheduleShape := by
  intro c chs admitted level
  have bound := midLevel_le c
  have level : 0 < c.midLevel.toNat := level
  have all := levelsIn_append chs (lo := 1) level bound
  refine ⟨(levelsIn chs 1 c.midLevel.toNat).map (levelSlot c chs),
    (levelsIn chs c.midLevel.toNat 255).map (levelSlot c chs), builtSlots_eq_schedule level chs, ?_, ?_, ?_, ?_, ?_, ?_⟩
  · rw [List.map_eq_nil_iff, levelsIn_eq_nil_iff]
    refine forall_congr' fun k => not_congr ⟨fun inRange => ?_, fun inRange => ?_⟩
    · exact ⟨inRange.1, inRange.2, Nat.lt_of_lt_of_le inRange.2 bound⟩
    · exact ⟨inRange.1, inRange.2.1⟩
  · rw [List.map_eq_nil_iff, levelsIn_eq_nil_iff]
    exact forall_congr' fun k => Iff.rfl
  · rw [← List.map_append, all, List.forall_mem_map]
    exact fun b mem => levelSlot_legal admitted mem
  · rw [List.pairwise_map]
    refine (levelsIn_rising chs 1 _).imp_of_mem fun memA memB less => ?_
    exact gamma_lt_of_preWrap admitted (mem_levelsIn.mp memA).1 less (mem_levelsIn.mp memB).2.1
  · rw [List.pairwise_map]
    refine (levelsIn_rising chs _ 255).imp_of_mem fun memA memB less => ?_
    have low := (mem_levelsIn.mp memA).1
    exact gamma_lt_of_postWrap admitted (by omega) low less (mem_levelsIn.mp memB).2.1
  · rw [← List.map_append, all, List.pairwise_map]
    exact (levelsIn_rising chs 1 255).imp fun less => maskUpTo_and_of_le c chs (Nat.le_of_lt less)

/-! ### Channels at the extreme levels -/

section Extreme

variable {c : Config} {chs chs' : Channels}

theorem brightnessOf_set_self (chs : Channels) (x : Channel) (k : Chan) :
    brightnessOf (chs.set x k) k = x.brightness := by
  rw [brightnessOf, get_set_self]

theorem brightnessOf_set_other (chs : Channels) (x : Channel) {k j : Chan} (other : j ≠ k) :
    brightnessOf (chs.set x k) j = brightnessOf chs j := by
  rw [brightnessOf, get_set_other chs x other, brightnessOf]

/-- The slots depend on the eligible channels alone (R112). -/
theorem builtSlots_congr (c : Config)
    (same : ∀ k (b : Nat), 0 < b → b < 255 → ((brightnessOf chs k).toNat = b ↔ (brightnessOf chs' k).toNat = b)) :
    builtSlots c chs = builtSlots c chs' := by
  have levels : levelsIn chs 1 255 = levelsIn chs' 1 255 := by
    refine (levelsIn_rising chs 1 255).eq_of_mem_iff (levelsIn_rising chs' 1 255) fun b => ?_
    rw [mem_levelsIn, mem_levelsIn]
    refine and_congr_right fun low => and_congr_right fun high => exists_congr fun k => same k b low high
  have sameBits : ∀ b k, SetAt chs b k ↔ SetAt chs' b k := by
    intro b k
    constructor
    · rintro ⟨pos, lt, le⟩
      have e := (same k _ pos lt).mp rfl
      rw [SetAt, e]
      exact ⟨pos, lt, le⟩
    · rintro ⟨pos, lt, le⟩
      have e := (same k _ pos lt).mpr rfl
      rw [SetAt, e]
      exact ⟨pos, lt, le⟩
  have slots : levelSlot c chs = levelSlot c chs' := by
    funext b
    have masks : maskUpTo c chs b = maskUpTo c chs' b := by
      refine BitVec.eq_of_getLsbD_eq fun i _ => ?_
      rw [Bool.eq_iff_iff, getLsbD_maskUpTo, getLsbD_maskUpTo]
      simp only [sameBits]
    rw [levelSlot, masks, levelSlot]
  rw [builtSlots_eq_closedSlots, builtSlots_eq_closedSlots, levels, slots]

end Extreme

/-- Settles O27: a level's mask has the bits of the eligible channels alone, and no slot depends on the others. -/
theorem extremeLevelsGiveNoSlot : Obligations.ExtremeLevelsGiveNoSlot := by
  intro c chs k admitted
  refine ⟨fun extreme sl mem other => ?_, builtSlots_congr c fun j b pos lt => ?_⟩
  · obtain ⟨b, rfl⟩ := (mem_builtSlots mem).resolve_left other
    refine (maskUpTo_and_chMask_eq_zero_iff admitted.1 chs b k).mpr fun isSet => ?_
    obtain ⟨pos, below, -⟩ := isSet
    obtain dark | full := extreme
    · rw [dark] at pos
      exact Nat.lt_irrefl 0 pos
    · rw [full] at below
      exact Nat.lt_irrefl 255 below
  · by_cases same : j = k
    · subst same
      rw [brightnessOf_set_self, brightnessOf_set_self]
      change 0 = b ↔ 255 = b
      omega
    · rw [brightnessOf_set_other _ _ same, brightnessOf_set_other _ _ same]

end Sys2Proof.Proofs
end

