-- ==== Sys2Proof/Proofs/MarkerMask.lean ====
section
/-! PROOFS. The marker's mask is never ORed into the port (42_sequencer.md R158, 90_conflicts.md C5): `MarkerClear` holds at
reset and every agent's move keeps it, and what it allows to be ORed has channel bits only. -/

namespace Sys2Proof.Proofs

open Sys2Proof.Machine Sys2Proof.Laws Sys2Proof.Claims

/-! ### Masks of channel bits -/

section Masks

variable {c : Config}

theorem withinChannels_zero (c : Config) : WithinChannels c 0 :=
  BitVec.zero_and

/-- A level's mask is made of channel masks (R113). -/
theorem withinChannels_maskUpTo (c : Config) (chs : Channels) (b : Nat) : WithinChannels c (maskUpTo c chs b) := by
  refine BitVec.eq_of_getLsbD_eq fun i hi => ?_
  rw [BitVec.getLsbD_and, BitVec.getLsbD_not, BitVec.getLsbD_or, BitVec.getLsbD_or]
  cases isSet : (maskUpTo c chs b).getLsbD i with
  | false => simp
  | true =>
    obtain ⟨k, -, bit⟩ := (getLsbD_maskUpTo c chs b i).mp isSet
    cases k <;> simp [bit]

theorem withinChannels_of_mem_builtSlots {chs : Channels} {sl : Slot} (mem : sl ∈ builtSlots c chs) :
    sl = marker c ∨ WithinChannels c sl.mask := by
  obtain e | ⟨b, rfl⟩ := mem_builtSlots mem
  · exact .inl e
  · exact .inr (withinChannels_maskUpTo c chs b)

/-- An entry in use after a rebuild is one of the slots built. -/
theorem mem_builtSlots_of_rebuild (level : 0 < c.midLevel) {s : State} {i : Nat} {sl : Slot}
    (inUse : i < (rebuild c s).count.toNat) (slot : (rebuild c s).slots.get? i = some sl) :
    sl ∈ builtSlots c s.ch := by
  have level : 0 < c.midLevel.toNat := level
  rw [rebuild_count level] at inUse
  rw [rebuild_slots level, get?_overlay_of_lt s.slots (length_schedule_le level s.ch) inUse] at slot
  rw [builtSlots_eq_schedule level]
  exact List.mem_of_getElem? slot

end Masks

/-! ### What is staged -/

section Staged

variable {c : Config} {s t : State}

theorem markerStaged_iff (c : Config) (s : State) :
    markerStaged c s = true ↔ s.nextBitmask = c.midMask ∧ c.aTop < s.ocrb :=
  decide_eq_true_iff

/-- `MarkerClear` reads the schedule, what is staged and what `Inv` reads. -/
theorem markerClear_of_same (clear : MarkerClear c s) (legal : Inv c t) (slots : t.slots = s.slots)
    (count : t.count = s.count) (nextBitmask : t.nextBitmask = s.nextBitmask) (ocrb : t.ocrb = s.ocrb) :
    MarkerClear c t := by
  obtain ⟨-, channelMasks, staged⟩ := clear
  refine ⟨legal, ?_, ?_⟩
  · rw [slots, count]
    exact channelMasks
  · rw [markerStaged_iff, nextBitmask, ocrb, ← markerStaged_iff]
    exact staged

/-- Slot preparation stages the marker with its deadline, or channel bits; after the last slot `OCRB` is off. -/
theorem prepare_keeps_markerClear (admitted : c.Admitted) (clear : MarkerClear c s) {port : Byte}
    (h : prepare c { s with port := port, seq := .idle } = .next t) : MarkerClear c t := by
  have legal := prepare_keeps_inv admitted clear.legal h
  obtain ⟨-, -, midTop, bOff, -⟩ := admitted
  obtain ⟨-, rfl⟩ | ⟨more, sl, slot, rfl⟩ := prepare_next h
  · refine ⟨legal, clear.channelMasks, clear.staged.imp_left fun marked => ?_⟩
    exact (markerStaged_iff _ _).mpr ⟨((markerStaged_iff _ _).mp marked).1, bOff⟩
  · refine ⟨legal, clear.channelMasks, ?_⟩
    obtain rfl | within := clear.channelMasks _ more sl slot
    · exact .inl ((markerStaged_iff _ _).mpr ⟨rfl, midTop⟩)
    · exact .inr within

theorem sequencerStep_keeps_markerClear (admitted : c.Admitted) (clear : MarkerClear c s)
    (h : sequencerStep c s = .next t) : MarkerClear c t := by
  have legal := sequencerStep_keeps_inv admitted clear.legal h
  cases sequencerStep_next h with
  | preparedA _ _ p => exact prepare_keeps_markerClear (port := s.port) admitted clear p
  | preparedB _ _ p => exact prepare_keeps_markerClear admitted clear p
  | enteredA _ a =>
    obtain ⟨_, -, -, -, e⟩ := enter_a a
    rw [e] at legal ⊢
    exact markerClear_of_same clear legal rfl rfl rfl rfl
  | _ => exact markerClear_of_same clear legal rfl rfl rfl rfl

theorem foregroundStep_keeps_markerClear (admitted : c.Admitted) (level : 0 < c.midLevel) (mask : c.midMask ≠ 0)
    (clear : MarkerClear c s) (h : foregroundStep c s = .next t) : MarkerClear c t := by
  have legal := foregroundStep_keeps_inv admitted level mask clear.legal h
  cases foregroundStep_next h with
  | rebuilt =>
    refine ⟨legal, fun i inUse sl slot => ?_, .inr (withinChannels_zero c)⟩
    exact withinChannels_of_mem_builtSlots (mem_builtSlots_of_rebuild level inUse slot)
  | ran _ _ _ _ _ _ _ _ _ w =>
    subst w
    exact markerClear_of_same clear legal rfl rfl rfl rfl
  | _ => exact markerClear_of_same clear legal rfl rfl rfl rfl

theorem moveStep_keeps_markerClear (admitted : c.Admitted) (level : 0 < c.midLevel) (mask : c.midMask ≠ 0) {m : Move}
    (clear : MarkerClear c s) (h : moveStep c m s = .next t) : MarkerClear c t := by
  have legal := moveStep_keeps_inv admitted level mask clear.legal h
  cases m with
  | tick =>
    cases h
    rw [tick_frame] at legal ⊢
    exact markerClear_of_same clear legal rfl rfl rfl rfl
  | sequencer => exact sequencerStep_keeps_markerClear admitted clear h
  | foreground => exact foregroundStep_keeps_markerClear admitted level mask clear h
  | hostSend b => cases h; exact markerClear_of_same clear legal rfl rfl rfl rfl
  | hostTake => cases h; exact markerClear_of_same clear legal rfl rfl rfl rfl

end Staged

/-! ### The port -/

section Port

variable {c : Config} {s t : State}

/-- A slot the spin waits for is a channel slot (R155, R156). -/
theorem withinChannels_of_aSpinWait (admitted : c.Admitted) (clear : MarkerClear c s) {sl : Slot}
    (position : s.seq = .aSpinWait) (slot : currentSlot s = some sl) : WithinChannels c sl.mask := by
  obtain ⟨sl', slot', below⟩ := slot_of_aSpinWait clear.legal position
  obtain rfl : sl = sl' := Option.some.inj (slot.symm.trans slot')
  have inUse := index_lt_count_of_aSpinWait clear.legal position
  refine (clear.channelMasks _ inUse sl slot).resolve_left fun isMarker => ?_
  have outside := (eq_marker_iff_of_slotLegal admitted (currentSlot_legal clear.legal inUse slot)).mp isMarker
  exact BitVec.lt_asymm below outside

/-- The B handler's OR: nothing where the marker is staged, else channel bits (R157, R158). -/
theorem port_or_stagedMask_of_markerClear (clear : MarkerClear c s) :
    s.port ||| stagedMask c s = s.port ∨ WithinChannels c (stagedMask c s) := by
  obtain ⟨-, -, e⟩ | ⟨other, e⟩ := stagedMask_cases c s
  · exact .inl (by simp [e])
  · rw [e]
    exact .inr (clear.staged.resolve_left (mt (markerStaged_iff c s).mp other))

theorem sequencerStep_port_of_markerClear (admitted : c.Admitted) (clear : MarkerClear c s)
    (h : sequencerStep c s = .next t) :
    t.port = s.port ∨ (s.seq = .aStart1 ∧ t.port = s.initialBitmask) ∨
      ∃ m, WithinChannels c m ∧ t.port = s.port ||| m := by
  cases sequencerStep_next h with
  | startedCycle position => exact .inr (.inl ⟨position, rfl⟩)
  | spunSlot sl position slot =>
    exact .inr (.inr ⟨sl.mask, withinChannels_of_aSpinWait admitted clear position slot, rfl⟩)
  | preparedB _ _ p =>
    have written : t.port = s.port ||| stagedMask c s := prepare_port p
    rw [written]
    exact (port_or_stagedMask_of_markerClear clear).imp_right fun within => .inr ⟨_, within, rfl⟩
  | preparedA _ _ p => exact .inl (prepare_port p :)
  | enteredA => exact .inl (enter_port s)
  | _ => exact .inl rfl

theorem moveStep_port_of_markerClear (admitted : c.Admitted) {m : Move} (clear : MarkerClear c s)
    (h : moveStep c m s = .next t) :
    t.port = s.port ∨ (s.seq = .aStart1 ∧ t.port = s.initialBitmask) ∨
      ∃ m, WithinChannels c m ∧ t.port = s.port ||| m := by
  by_cases own : m = .sequencer
  · subst own
    exact sequencerStep_port_of_markerClear admitted clear h
  · exact .inl (moveStep_port_of_ne_sequencer h own)

end Port

/-! ### No old B event -/

section OldB

variable {c : Config} {s t : State}

/-- A value above `A_TOP` is not matched by a tick (R252). -/
theorem tick_keeps_noOldB (inv : Inv c s) (old : NoOldB c s) : NoOldB c (tick c s) := by
  intro outside
  rw [tick_ocrb] at outside
  obtain ⟨noB, notRunning⟩ := old outside
  have within : (tick c s).tcnt ≤ c.aTop := (tick_keeps_inv inv).counter
  have miss : (tick c s).tcnt ≠ s.ocrb := fun hit => absurd outside (BitVec.not_lt.mpr (hit ▸ within))
  refine ⟨(tick_bPending_of_no_match miss).trans noB, ?_⟩
  rw [tick_frame]
  exact notRunning

theorem foregroundStep_keeps_noOldB (old : NoOldB c s) (h : foregroundStep c s = .next t) : NoOldB c t := by
  intro outside
  rw [foregroundStep_ocrb h] at outside
  obtain ⟨noB, notRunning⟩ := old outside
  refine ⟨(foregroundStep_bPending h).trans noB, ?_⟩
  rw [foregroundStep_frame h]
  exact notRunning

/-- A slot preparation that ends a handler leaves no B event where none waited. -/
theorem prepare_keeps_noOldB {port : Byte} (noB : s.bPending = false)
    (h : prepare c { s with port := port, seq := .idle } = .next t) : NoOldB c t := by
  refine fun _ => ⟨(prepare_bPending h).trans noB, ?_⟩
  have idle : t.seq = .idle := prepare_seq h
  simp [idle]

theorem sequencerStep_keeps_noOldB (old : NoOldB c s) (fresh : ¬PreparesOverB s) (h : sequencerStep c s = .next t) :
    NoOldB c t := by
  have noB : s.seq = .aPrep ∨ s.seq = .bRun → s.bPending = false :=
    fun position => Bool.eq_false_iff.mpr fun waits => fresh ⟨position, waits⟩
  cases sequencerStep_next h with
  | held => exact old
  | waited => exact old
  | preparedA _ position p => exact prepare_keeps_noOldB (port := s.port) (noB (.inl position)) p
  | preparedB _ position p => exact prepare_keeps_noOldB (noB (.inr position)) p
  | enteredA _ a =>
    obtain ⟨_, -, -, -, e⟩ := enter_a a
    rw [e]
    exact fun outside => ⟨(old outside).1, by simp⟩
  | enteredB _ _ waits => exact fun outside => absurd ((old outside).1.symm.trans waits) Bool.false_ne_true
  | _ => exact fun outside => ⟨(old outside).1, by simp⟩

theorem moveStep_keeps_noOldB {m : Move} (inv : Inv c s) (old : NoOldB c s) (fresh : ¬PreparesOverB s)
    (h : moveStep c m s = .next t) : NoOldB c t := by
  cases m with
  | tick => cases h; exact tick_keeps_noOldB inv old
  | sequencer => exact sequencerStep_keeps_noOldB old fresh h
  | foreground => exact foregroundStep_keeps_noOldB old h
  | hostSend b => cases h; exact old
  | hostTake => cases h; exact old

end OldB

/-- At reset the marker is the one entry in use, and the sentinel is up. -/
theorem reset_markerClear : MarkerClear chip State.reset := by
  refine ⟨resetIsLegal.1, fun i inUse sl slot => ?_, .inr (withinChannels_zero chip)⟩
  obtain rfl : i = 0 := Nat.lt_one_iff.mp inUse
  cases slot
  exact .inl rfl

/-- The machine's marker mask 0xFF has bits of no channel. -/
theorem not_withinChannels_midMask : ¬WithinChannels chip chip.midMask := by
  unfold WithinChannels
  decide

/-- Settles O60: the three parts of the step, each kept by every agent's move. -/
theorem markerMaskNeverOred : Obligations.MarkerMaskNeverOred := by
  refine ⟨⟨reset_markerClear, fun _ => ⟨rfl, by decide⟩⟩, fun s t clear h => ?_⟩
  obtain ⟨ms, n, e⟩ := step_eq_moveStep s
  rw [e] at h
  have clear' : MarkerClear chip { s with script := ms, draws := n } :=
    ⟨inv_frame clear.legal .., clear.channelMasks, clear.staged⟩
  refine ⟨?_, moveStep_keeps_markerClear chip_admitted (by decide) (by decide) clear' h,
    fun old fresh => moveStep_keeps_noOldB clear'.legal (s := { s with script := ms, draws := n }) old fresh h⟩
  refine (moveStep_port_of_markerClear chip_admitted clear' h).imp_right (.imp_right ?_)
  rintro ⟨m, within, written⟩
  exact ⟨m, within, fun isMarker => not_withinChannels_midMask (isMarker ▸ within), written⟩

end Sys2Proof.Proofs
end

