-- ==== Sys2Proof/Proofs/WholeCycle.lean ====
section
/-! PROOFS. A PWM cycle event by event (42_sequencer.md section 4, 40_gamma_scheduler.md section 3): the first event starts the
cycle, each further one serves the staged slot and stages the next, and the last one leaves only the channels at 255
lit. -/

namespace Sys2Proof.Proofs

open Sys2Proof.Machine Sys2Proof.Laws Sys2Proof.Claims

/-! ### One event -/

section OneEvent

variable {c : Config} {s t : State}

/-- What the event of a staged slot adds to the port: the mask of a channel slot, nothing for the marker (R157, R158). -/
def servedMask (c : Config) (sl : Slot) : Byte :=
  if c.aTop < sl.top then 0 else sl.mask

/-- The event of the staged slot comes to slot preparation, after the OR of the served mask. -/
theorem serveEvent_of_staged (quiet : Quiet s) (inTime : s.lastPulse = false) (staged : s.nextBitmask ≠ 0)
    (prepared : prepare c { s with port := s.port ||| servedMask c ⟨s.ocrb, s.nextBitmask⟩ } = .next t)
    (quiet' : Quiet t) : serveEvent c s = .next t := by
  obtain ⟨idle, a, b⟩ := quiet
  unfold serveEvent
  by_cases outside : c.aTop < s.ocrb
  · obtain ⟨fs, same, run⟩ := runMoves_of_wrap c (s := { s with aPending := true }) idle rfl staged
    rw [if_pos outside, run [.sequencer] t, runMoves_of_quiet quiet']
    · rfl
    · have nothing : s.port ||| servedMask c ⟨s.ocrb, s.nextBitmask⟩ = s.port := by
        rw [servedMask, if_pos outside]
        exact BitVec.or_zero
      rw [nothing] at prepared
      rw [same inTime, ← prepared, ← a]
  · have mask : stagedMask c s = servedMask c ⟨s.ocrb, s.nextBitmask⟩ := by
      rw [stagedMask_of_not_marker fun marked => outside marked.2, servedMask, if_neg outside]
    rw [if_neg outside, runMoves_of_bEvent c (s := { s with bPending := true }) (t := t) idle a rfl,
      runMoves_of_quiet quiet', runMoves_of_quiet quiet']
    · rfl
    · rw [← prepared, ← mask, ← b]
      rfl

/-- The event of a cycle start whose first slot is not near comes to slot preparation, after the full port write. -/
theorem serveEvent_of_cycleStart {sl : Slot} (quiet : Quiet s) (inTime : s.lastPulse = false)
    (sentinel : s.nextBitmask = 0) (off : c.aTop < s.ocrb) (slot : currentSlot s = some sl)
    (far : s.tcnt.toNat + c.guard.toNat ≤ sl.top.toNat)
    (prepared : prepare c { s with port := s.initialBitmask, newCycle := true } = .next t) :
    serveEvent c s = .next t := by
  obtain ⟨idle, a, -⟩ := quiet
  obtain ⟨fs, same, run⟩ := runMoves_of_cycleStart c (s := { s with aPending := true }) idle rfl sentinel slot far
  rw [serveEvent, if_pos off, run [] t]
  · rfl
  · rw [same inTime, ← prepared, ← a]

theorem serveEvents_succ {n : Nat} (before : serveEvents c n s = .next t) :
    serveEvents c (n + 1) s = serveEvent c t := by
  simp only [serveEvents, before]

end OneEvent

/-! ### The events of a cycle -/

/-- A quiet state at the start of a cycle with the schedule `out`, as a rebuild leaves it. -/
structure ReadyCycle (c : Config) (s : State) (out : List Slot) : Prop where
  quiet : Quiet s
  inTime : s.lastPulse = false
  cursor : s.index = 0
  sentinel : s.nextBitmask = 0
  off : c.aTop < s.ocrb
  count : s.count.toNat = out.length
  most : out.length ≤ 4
  entries : ∀ i < out.length, s.slots.get? i = out[i]?
  masks : ∀ sl ∈ out, sl.mask ≠ 0

/-- The port after the cycle start and the events of the slots `served`. -/
def portAfter (c : Config) (initial : Byte) (served : List Slot) : Byte :=
  served.foldl (fun p sl => p ||| servedMask c sl) initial

/-- The state inside the cycle after the events of the slots `served`, before slot preparation. -/
def inCycle (c : Config) (served : List Slot) (s : State) : State :=
  { s with port := portAfter c s.initialBitmask served, newCycle := true }

section Cycle

variable {c : Config} {s : State} {out : List Slot}

theorem portAfter_concat (c : Config) (initial : Byte) (served : List Slot) (sl : Slot) :
    portAfter c initial (served ++ [sl]) = portAfter c initial served ||| servedMask c sl := by
  rw [portAfter, List.foldl_append]
  rfl

theorem inCycle_concat (c : Config) (served : List Slot) (sl : Slot) (s : State) :
    inCycle c (served ++ [sl]) s =
      { inCycle c served s with port := portAfter c s.initialBitmask served ||| servedMask c sl } := by
  rw [← portAfter_concat]
  rfl

theorem ReadyCycle.lt_count (ready : ReadyCycle c s out) {n : Nat} (inUse : n < out.length) : n < s.count.toNat :=
  ready.count ▸ inUse

theorem ReadyCycle.entry (ready : ReadyCycle c s out) {n : Nat} (inUse : n < out.length) :
    s.slots.get? n = some out[n] := by
  rw [ready.entries n inUse, List.getElem?_eq_getElem inUse]

/-- Serving the slot that is staged after `n + 1` events. -/
theorem serveEvent_stagedAt (ready : ReadyCycle c s out) {n : Nat} (inUse : n < out.length) {t : State}
    (prepared : prepare c (stagedAt n out[n] (inCycle c (out.take (n + 1)) s)) = .next t) (quiet : Quiet t) :
    serveEvent c (stagedAt n out[n] (inCycle c (out.take n) s)) = .next t := by
  refine serveEvent_of_staged ready.quiet ready.inTime (ready.masks _ (List.getElem_mem inUse)) ?_ quiet
  rw [← prepared, ← List.take_concat_get' out n inUse, inCycle_concat]
  rfl

/-- Event `n + 1` stages entry `n`; the slots before it have been served. -/
theorem serveEvents_stages (ready : ReadyCycle c s out) {sl : Slot} (first : s.slots.get? 0 = some sl)
    (far : s.tcnt.toNat + c.guard.toNat ≤ sl.top.toNat) {n : Nat} (inUse : n < out.length) :
    serveEvents c (n + 1) s = .next (stagedAt n out[n] (inCycle c (out.take n) s)) := by
  have bound := ready.most
  induction n with
  | zero =>
    have slot : currentSlot s = some sl := by rw [currentSlot, ready.cursor]; exact first
    rw [serveEvents_succ (t := s) rfl]
    refine serveEvent_of_cycleStart ready.quiet ready.inTime ready.sentinel ready.off slot far ?_
    refine prepare_stages c ?_ (ready.lt_count inUse) (ready.entry inUse)
    rw [ready.cursor]
    rfl
  | succ n ih =>
    rw [serveEvents_succ (ih (by omega))]
    refine serveEvent_stagedAt ready (by omega) ?_ ready.quiet
    exact prepare_stages c (stagedAt_index_toNat _ _ (by omega)) (ready.lt_count inUse) (ready.entry inUse)

/-- The last event serves the last slot and ends the cycle (R159). -/
theorem serveEvents_ends (ready : ReadyCycle c s out) (least : 0 < out.length) {sl : Slot}
    (first : s.slots.get? 0 = some sl) (far : s.tcnt.toNat + c.guard.toNat ≤ sl.top.toNat) :
    ∃ t, serveEvents c (out.length + 1) s = .next t ∧ t.port = portAfter c s.initialBitmask out ∧
      t.lastPulse = true ∧ t.newCycle = true ∧ t.index = 0 ∧ t.ocrb = c.bOff ∧ Quiet t ∧ t.faults = s.faults := by
  have bound := ready.most
  obtain ⟨n, length⟩ : ∃ n, out.length = n + 1 := ⟨out.length - 1, by omega⟩
  have inUse : n < out.length := by omega
  have exhausted : (stagedAt n out[n] (inCycle c (out.take (n + 1)) s)).count ≤
      (stagedAt n out[n] (inCycle c (out.take (n + 1)) s)).index := by
    rw [BitVec.le_def, stagedAt_index_toNat _ _ (by omega), ← length]
    exact ready.count.le
  rw [length, serveEvents_succ (serveEvents_stages ready first far inUse)]
  refine ⟨_, serveEvent_stagedAt ready inUse (prepare_of_count_le_index c exhausted) ready.quiet, ?_, rfl, rfl, rfl, rfl,
    ready.quiet, rfl⟩
  rw [← length, List.take_length]
  rfl

end Cycle

/-! ### The port at the end of the cycle -/

section EndPort

variable {c : Config} {chs : Channels}

theorem getLsbD_portAfter (c : Config) (initial : Byte) (served : List Slot) (i : Nat) :
    (portAfter c initial served).getLsbD i = false ↔
      initial.getLsbD i = false ∧ ∀ sl ∈ served, (servedMask c sl).getLsbD i = false := by
  induction served generalizing initial with
  | nil => simp [portAfter]
  | cons sl served ih =>
    rw [portAfter, List.foldl_cons, ← portAfter, ih, BitVec.getLsbD_or, Bool.or_eq_false_iff, List.forall_mem_cons,
      and_assoc]

theorem forall_mem_schedule_iff (level : 0 < c.midLevel.toNat) (p : Slot → Prop) :
    (∀ sl ∈ schedule c chs, p sl) ↔ p (marker c) ∧ ∀ b ∈ levelsIn chs 1 255, p (levelSlot c chs b) := by
  rw [schedule, ← levelsIn_append chs (lo := 1) level (midLevel_le c), List.forall_mem_append, List.forall_mem_cons,
    List.forall_mem_append, List.forall_mem_map, List.forall_mem_map]
  exact and_left_comm

/-- The marker sets no port bit: its deadline is out of reach (R103, R158). -/
theorem servedMask_marker_getLsbD (admitted : c.Admitted) (i : Nat) :
    (servedMask c (marker c)).getLsbD i = false := by
  have outside : c.aTop < (marker c).top := admitted.2.2.1
  rw [servedMask, if_pos outside]
  exact BitVec.getLsbD_zero

theorem servedMask_levelSlot (admitted : c.Admitted) {b : Nat} (mem : b ∈ levelsIn chs 1 255) :
    servedMask c (levelSlot c chs b) = maskUpTo c chs b :=
  if_neg (BitVec.lt_asymm (levelSlot_legal admitted mem).2.1)

/-- Some level sets a channel's bit just where the channel is eligible. -/
theorem forall_levels_not_setAt_iff (chs : Channels) (k : Chan) :
    (∀ b ∈ levelsIn chs 1 255, ¬SetAt chs b k) ↔
      ¬(0 < (brightnessOf chs k).toNat ∧ (brightnessOf chs k).toNat < 255) := by
  constructor
  · rintro unset ⟨pos, lt⟩
    exact unset _ (mem_levelsIn.mpr ⟨pos, lt, k, rfl⟩) ⟨pos, lt, le_rfl⟩
  · exact fun out b _ isSet => out ⟨isSet.1, isSet.2.1⟩

/-- After the whole schedule is served exactly the channels at 255 are lit (R112, R120). -/
theorem portAfter_schedule_and_chMask (admitted : c.Admitted) (level : 0 < c.midLevel.toNat) (chs : Channels)
    (k : Chan) :
    portAfter c (builtInitialMask c chs) (schedule c chs) &&& c.chMask k = 0 ↔ (chs.get k).brightness = 255 := by
  have start := builtInitialMask_and_chMask_eq_zero_iff admitted.1 chs k
  have atLevel := fun b => maskUpTo_and_chMask_eq_zero_iff admitted.1 chs b k
  obtain ⟨i, hi, bit⟩ := chMask_eq_twoPow admitted.1 k
  simp only [bit, and_twoPow_eq_zero_iff _ hi] at start atLevel
  have levels : (∀ b ∈ levelsIn chs 1 255, (servedMask c (levelSlot c chs b)).getLsbD i = false) ↔
      ∀ b ∈ levelsIn chs 1 255, ¬SetAt chs b k :=
    forall₂_congr fun b mem => by rw [servedMask_levelSlot admitted mem, atLevel]
  rw [bit, and_twoPow_eq_zero_iff _ hi, getLsbD_portAfter, start, forall_mem_schedule_iff level, levels,
    forall_levels_not_setAt_iff, BitVec.lt_def, ← BitVec.toNat_inj]
  simp only [servedMask_marker_getLsbD admitted, true_and]
  have bound : (brightnessOf chs k).toNat < 256 := (brightnessOf chs k).isLt
  change 0 < (brightnessOf chs k).toNat ∧ _ ↔ (brightnessOf chs k).toNat = 255
  omega

end EndPort

/-- A rebuild of a quiet state with B off is ready for its cycle. -/
theorem readyCycle_rebuild {c : Config} {s : State} (admitted : c.Admitted) (level : 0 < c.midLevel.toNat)
    (mask : c.midMask ≠ 0) (quiet : Quiet s) (inTime : s.lastPulse = false) (off : c.aTop < s.ocrb) :
    ReadyCycle c (rebuild c s) (schedule c s.ch) := by
  have most := length_schedule_le level s.ch
  refine ⟨quiet, inTime, rfl, rfl, off, rebuild_count level s, most, fun i inUse => ?_, ?_⟩
  · rw [rebuild_slots level, get?_overlay_of_lt s.slots most inUse]
  · exact (forall_mem_schedule_iff level fun sl => sl.mask ≠ 0).mpr
      ⟨mask, fun b mem => (levelSlot_legal admitted mem).2.2⟩

/-- Settles O35: the events stage and serve the schedule in order, and the ORs leave exactly the channels at 255 lit. -/
theorem wholeCycleOfEvents : Obligations.WholeCycleOfEvents := by
  intro c s sl admitted level mask quiet inTime off first far
  have ready := readyCycle_rebuild admitted level mask quiet inTime off
  have least : 0 < (schedule c s.ch).length := by
    rw [length_schedule level]
    exact Nat.succ_pos _
  refine ⟨⟨_, serveEvents_stages ready first far least, rfl⟩, ?_⟩
  obtain ⟨t, served, port, lastPulse, newCycle, index, ocrb, quiet', faults⟩ := serveEvents_ends ready least first far
  rw [rebuild_count level]
  refine ⟨t, served, fun k => ?_, lastPulse, newCycle, index, ocrb, quiet', faults⟩
  rw [port]
  exact portAfter_schedule_and_chMask admitted level s.ch k

end Sys2Proof.Proofs
end
